-- ==== Sys2Proof/Word.lean ====
section
/-! DEFINITION. The word type, the register index type, the condition flag type, and the two readings of a word
(spec/00_scope.md rules R1, R2 and its notation table). -/

namespace Sys2Proof

/-- R1: a word is 32 bits, "the sole storage unit"; bit i has weight 2^i (R2). -/
abbrev Word := BitVec 32

/-- R20: register indices are the 4-bit values 0 to 15. -/
abbrev Reg := Fin 16

/-- R92: a CondFlag is one of the 16 subsets of the four flags M, Z, P, V, held as 4 bits. The same type serves as
the condition flag register and as an instruction's cond field. -/
abbrev CondFlag := BitVec 4

/-- Notation table of 00_scope.md: `u32(v) = v mod 2^32`, the word that represents the integer v. -/
def u32 (v : Int) : Word := BitVec.ofInt 32 v

/-- Notation table of 00_scope.md: `s32(w)`, the signed reading of a word. -/
def s32 (w : Word) : Int := w.toInt

end Sys2Proof
end

