-- ==== Sys2Proof/Config.lean ====
section
/-! DEFINITION. The types of the hardware's parameters (spec/00_scope.md rule R13): the bit-field descriptor, the
instruction layout, the opcode set, and the one configuration record. The record's VALUES for this hardware are
`Config.js32` in Sys2Proof/Decode.lean, beside the decoder that reads them. -/

namespace Sys2Proof

/-- R80, R81: an "immutable inclusive bit-range descriptor" with `0 <= low <= high <= 31`. The descriptor carries the
proof of its own validity, so an invalid one cannot be built. -/
structure BitField where
  low         : Nat
  high        : Nat
  low_le_high : low ≤ high
  high_le     : high ≤ 31
  deriving DecidableEq, Repr

/-- R94: the "closed set" of seven opcodes. -/
inductive OpCode where
  | halt | load | store | add | sub | mul | div
  deriving DecidableEq, Repr

/-- R91: where the seven fields of the one instruction format stand in the word. -/
structure Layout where
  reserved : BitField
  op       : BitField
  cond     : BitField
  target   : BitField
  src1     : BitField
  src2     : BitField
  offset   : BitField
  deriving DecidableEq, Repr

/-- R92: the bit of each of the four flags. -/
structure FlagBits where
  m : CondFlag
  z : CondFlag
  p : CondFlag
  v : CondFlag
  deriving DecidableEq, Repr

/-- R13: the parameters that differ from chip to chip, in one record. `memWords` (MEM_WORDS) and `memInit`
(MEM_INIT, the words from address 0 upward; the rest of memory holds `Memory.unlisted`) are OPEN in the spec: they
are arguments of `Machine.State.powerOn`, and the memory carries its own size, so every statement about every
state is a statement about every size and every contents. -/
structure Config where
  memWords   : Nat
  memInit    : List Word
  layout     : Layout
  opcodeCode : OpCode → Nat
  flagBit    : FlagBits
  resetFlag  : CondFlag
  resetReg   : Word

end Sys2Proof
end

