-- ==== Sys2Proof/Syntax.lean ====
section
/-! DEFINITION. The instruction set as syntax: one constructor per row of spec/opcode_table.json, all over the one
record of fields (spec/30_encoding.md rules R90, R94, R95). -/

namespace Sys2Proof

/-- R95: the fields every instruction carries. The offset is a mathematical integer: a decoded one lies in
-512..511, one handed to the encoder may lie outside (R101). The reserved bit "must decode to 0". -/
structure Fields where
  cond     : CondFlag
  target   : Reg
  src1     : Reg
  src2     : Reg
  offset   : Int
  reserved : BitVec 1
  deriving DecidableEq, Repr

/-- R94, R95: an instruction is an opcode with its fields. -/
inductive Instr where
  | halt  (f : Fields)
  | load  (f : Fields)
  | store (f : Fields)
  | add   (f : Fields)
  | sub   (f : Fields)
  | mul   (f : Fields)
  | div   (f : Fields)
  deriving DecidableEq, Repr

/-- The opcode of an instruction. -/
def Instr.op : Instr → OpCode
  | .halt _  => .halt
  | .load _  => .load
  | .store _ => .store
  | .add _   => .add
  | .sub _   => .sub
  | .mul _   => .mul
  | .div _   => .div

/-- The fields of an instruction. -/
def Instr.fields : Instr → Fields
  | .halt f  => f
  | .load f  => f
  | .store f => f
  | .add f   => f
  | .sub f   => f
  | .mul f   => f
  | .div f   => f

end Sys2Proof
end

