-- ==== Sys2Proof/WellFormed.lean ====
section
/-! DEFINITION. Which instruction records are well formed (spec/30_encoding.md rule R95): the offset fits its 10-bit
signed field and the reserved bit is 0. The other fields are in range by their types. -/

namespace Sys2Proof

/-- R95: offset in -512..511, reserved = 0. -/
def Fields.wellFormed (f : Fields) : Bool :=
  decide (-512 ≤ f.offset) && decide (f.offset ≤ 511) && decide (f.reserved = 0)

/-- R95 for an instruction: the check is the same for every opcode (R90, one format). -/
def Instr.wellFormed (i : Instr) : Bool := i.fields.wellFormed

end Sys2Proof
end

