-- ==== Sys2Proof/Decode.lean ====
section
/-! DEFINITION. The BitField codec (spec/30_encoding.md rules R80 to R87), the configuration values of this hardware
(rules R13, R91, R92, R94), the decoder (R102 to R104), total on every word and rejecting undeclared opcodes by name,
and after it the encoder (R100, R101). -/

namespace Sys2Proof

/-! ### The BitField codec -/

/-- R81: construction from any pair of integers; an invalid pair is refused. -/
def BitField.make? (low high : Int) : Option BitField :=
  if h : 0 ≤ low ∧ low ≤ high ∧ high ≤ 31 then
    some ⟨low.toNat, high.toNat, by omega, by omega⟩
  else none

/-- R80: `width = high - low + 1`. -/
def BitField.width (F : BitField) : Nat := F.high - F.low + 1

/-- R80: `mask = 2^width - 1`. -/
def BitField.mask (F : BitField) : Nat := 2 ^ F.width - 1

/-- R82: "shift right by `low`, mask to width". -/
def BitField.extract (F : BitField) (w : Word) : Nat := (w.toNat >>> F.low) &&& F.mask

/-- R85: the low `width` bits of `value`, read in two's complement. -/
def signExtend (value : Int) (width : Nat) : Int :=
  let u := value % 2 ^ width
  if u ≥ 2 ^ (width - 1) then u - 2 ^ width else u

/-- R83: "extract then sign-extend by width". -/
def BitField.extractSigned (F : BitField) (w : Word) : Int := signExtend (F.extract w) F.width

/-- R84: "mask value to width, shift into position, clear target bits in `word`, OR in". -/
def BitField.insert (F : BitField) (value : Int) (w : Word) : Word :=
  (w &&& ~~~(BitVec.ofNat 32 F.mask <<< F.low)) ||| (u32 (value % 2 ^ F.width) <<< F.low)

/-! ### The configuration of this hardware -/

/-- R91 (decision D1): reserved 31; op 30:26; cond 25:22; target 21:18; src1 17:14; src2 13:10; offset 9:0. -/
def Layout.js32 : Layout where
  reserved := ⟨31, 31, by decide, by decide⟩
  op       := ⟨26, 30, by decide, by decide⟩
  cond     := ⟨22, 25, by decide, by decide⟩
  target   := ⟨18, 21, by decide, by decide⟩
  src1     := ⟨14, 17, by decide, by decide⟩
  src2     := ⟨10, 13, by decide, by decide⟩
  offset   := ⟨0, 9, by decide, by decide⟩

/-- R94 (decision D2): the number of each opcode; 4 and 8 to 31 are no opcode's. -/
def OpCode.code : OpCode → Nat
  | .halt  => 0
  | .load  => 1
  | .store => 2
  | .add   => 3
  | .sub   => 5
  | .mul   => 6
  | .div   => 7

/-- R13: the configuration this model runs. DESIGN CHOICE (assumption log 2 and 3): the spec leaves MEM_WORDS and
MEM_INIT open; 65536 words, nothing initialised. The other values are the spec's decisions D1, D2, D3, D9. -/
def Config.js32 : Config where
  memWords   := 65536
  memInit    := []
  layout     := Layout.js32
  opcodeCode := OpCode.code
  flagBit    := ⟨1, 2, 4, 8⟩
  resetFlag  := 15
  resetReg   := 0

/-! ### Decoding -/

/-- R94: the seven opcodes in the order of their codes. -/
def OpCode.all : List OpCode := [.halt, .load, .store, .add, .sub, .mul, .div]

/-- R102: the opcode a code names, if it names one. -/
def opOfCode (c : Nat) : Option OpCode :=
  OpCode.all.find? fun op => Config.js32.opcodeCode op == c

/-- The instruction record of an opcode and its fields (R95). -/
def OpCode.instr : OpCode → Fields → Instr
  | .halt,  f => .halt f
  | .load,  f => .load f
  | .store, f => .store f
  | .add,   f => .add f
  | .sub,   f => .sub f
  | .mul,   f => .mul f
  | .div,   f => .div f

/-- R102: the decoder's two verdicts. -/
inductive Decoded where
  | valid (i : Instr)
  | undeclared (code : Nat)
  deriving DecidableEq, Repr

/-- R102, R103: the fields of a word; bit 31 is not looked at and the record's reserved bit is 0. -/
def decodeFields (w : Word) : Fields where
  cond     := BitVec.ofNat 4 (Config.js32.layout.cond.extract w)
  target   := Fin.ofNat 16 (Config.js32.layout.target.extract w)
  src1     := Fin.ofNat 16 (Config.js32.layout.src1.extract w)
  src2     := Fin.ofNat 16 (Config.js32.layout.src2.extract w)
  offset   := Config.js32.layout.offset.extractSigned w
  reserved := 0

/-- R102, R104: total on all 2^32 words: a valid instruction, or the verdict "undeclared opcode" with the code. -/
def decode (w : Word) : Decoded :=
  match opOfCode (Config.js32.layout.op.extract w) with
  | some op => .valid (op.instr (decodeFields w))
  | none    => .undeclared (Config.js32.layout.op.extract w)

/-- The decoder on a word as spec/opcode_table.json numbers its bits: the one word of an instruction (R90), given as
its low `nbits` bits. No instruction is longer than 32 bits. -/
def decodeTableWord (nbits w : Nat) : Option Instr :=
  if nbits ≤ 32 then
    match decode (BitVec.ofNat 32 (w % 2 ^ nbits)) with
    | .valid i      => some i
    | .undeclared _ => none
  else none

/-! ### Encoding -/

/-- R100: six inserts into a zero word; the reserved field is not inserted, so bit 31 of every encoded word is 0.
R101: an offset that does not fit is masked, not rejected. -/
def encode (i : Instr) : Word :=
  let L := Config.js32.layout
  let f := i.fields
  L.offset.insert f.offset <|
  L.src2.insert f.src2.val <|
  L.src1.insert f.src1.val <|
  L.target.insert f.target.val <|
  L.cond.insert f.cond.toNat <|
  L.op.insert (Config.js32.opcodeCode i.op) 0

end Sys2Proof
end

