-- ==== Sys2Proof/Machine/Flags.lean ====
section
/-! DEFINITION. The condition flags: their values and set operations (spec/30_encoding.md rule R92), the flag of a
result (spec/40_engine_alu.md rule R145) and the predicate test (rule R153). -/

namespace Sys2Proof

/-- R27, R92: M, "negative". -/
def CondFlag.M : CondFlag := Config.js32.flagBit.m

/-- R27, R92: Z, "zero". -/
def CondFlag.Z : CondFlag := Config.js32.flagBit.z

/-- R27, R92: P, "positive". -/
def CondFlag.P : CondFlag := Config.js32.flagBit.p

/-- R27, R92: V, "overflow"; set by division by zero alone (R146). -/
def CondFlag.V : CondFlag := Config.js32.flagBit.v

/-- R92: union is bitwise OR. -/
def CondFlag.union (a b : CondFlag) : CondFlag := a ||| b

/-- R92: intersection is bitwise AND. -/
def CondFlag.inter (a b : CondFlag) : CondFlag := a &&& b

/-- R92: NEVER = 0. -/
def CondFlag.NEVER : CondFlag := 0

/-- R92: ALWAYS = M|Z|P|V. -/
def CondFlag.ALWAYS : CondFlag :=
  CondFlag.union CondFlag.M (CondFlag.union CondFlag.Z (CondFlag.union CondFlag.P CondFlag.V))

namespace Machine

/-- R145: "0->Z, negative->M, positive->P", from the wrapped 32-bit result. -/
def flagOf (result : Word) : CondFlag :=
  if result = 0 then CondFlag.Z
  else if 2 ^ 31 ≤ result.toNat then CondFlag.M
  else CondFlag.P

/-- R153: "Predicate satisfied iff (condition_flag & instr.cond) != NEVER." -/
def satisfied (flag cond : CondFlag) : Bool := decide (CondFlag.inter flag cond ≠ CondFlag.NEVER)

end Machine

end Sys2Proof
end

