-- ==== Sys2Proof/Machine/Alu.lean ====
section
/-! DEFINITION. The ALU, a pure function of the opcode and two words (spec/40_engine_alu.md rules R140 to R147). -/

namespace Sys2Proof.Machine

/-- R141, R145: an exact integer result wrapped to 32 bits, with the flag of the wrapped value. -/
def aluResult (r : Int) : Word × CondFlag := (u32 r, flagOf (u32 r))

/-- R140: "ADD=+, SUB=−, MUL=×, DIV=truncating-toward-negative-infinity integer division, LOAD/STORE=+ (address
arithmetic), HALT=constant 0", on signed readings; R146: division by zero is reported as (0, V). -/
def alu (op : OpCode) (a b : Word) : Word × CondFlag :=
  match op with
  | .halt  => aluResult 0
  | .add   => aluResult (s32 a + s32 b)
  | .load  => aluResult (s32 a + s32 b)
  | .store => aluResult (s32 a + s32 b)
  | .sub   => aluResult (s32 a - s32 b)
  | .mul   => aluResult (s32 a * s32 b)
  | .div   => if s32 b = 0 then (0, CondFlag.V) else aluResult (Int.fdiv (s32 a) (s32 b))

end Sys2Proof.Machine
end

