-- ==== Sys2Proof/Machine/Memory.lean ====
section
/-! DEFINITION. The one flat, word-addressed memory (spec/20_memory.md rules R50 to R53, R57, R59) in its canonical
form. R54: "A model must represent memory as an array of 32-bit words, not of bytes." -/

namespace Sys2Proof.Machine

/-- R50: an array of `words` 32-bit words (MEM_WORDS), addressed 0 to `words - 1`. Its contents are the listed cells;
every other word of the array holds `Memory.unlisted`. The size belongs to the array and nothing changes it. -/
structure Memory where
  words : Nat
  cells : List (Nat × Word)
  deriving DecidableEq, Repr

/-- What a word that nothing has written holds. DESIGN CHOICE (assumption log 3): the spec leaves MEM_INIT open
(R57); zero, and any other MEM_INIT is a list of cells. -/
def Memory.unlisted : Word := 0

/-- The word the cells give at an address. -/
def Memory.lookup : List (Nat × Word) → Nat → Word
  | [], _ => Memory.unlisted
  | (b, v) :: rest, a => if b = a then v else Memory.lookup rest a

/-- The cells with address `a` set to `v`, in canonical form again: writing `Memory.unlisted` removes the cell. -/
def Memory.update : List (Nat × Word) → Nat → Word → List (Nat × Word)
  | [], a, v => if v = Memory.unlisted then [] else [(a, v)]
  | (b, u) :: rest, a, v =>
    if a < b then
      if v = Memory.unlisted then (b, u) :: rest else (a, v) :: (b, u) :: rest
    else if a = b then
      if v = Memory.unlisted then rest else (a, v) :: rest
    else (b, u) :: Memory.update rest a v

/-- R59: an address is valid when it is below MEM_WORDS. -/
def Memory.valid (m : Memory) (a : Nat) : Bool := decide (a < m.words)

/-- R52, R59: `MemRead(a, 1)`; no value at an invalid address. -/
def Memory.read? (m : Memory) (a : Nat) : Option Word :=
  if m.valid a then some (Memory.lookup m.cells a) else none

/-- R53, R59: `MemWrite(a, 1, v)`; no memory at an invalid address. -/
def Memory.write? (m : Memory) (a : Nat) (v : Word) : Option Memory :=
  if m.valid a then some { m with cells := Memory.update m.cells a v } else none

/-- The cells' addresses rise strictly from `lo`, stay below `hi`, and no cell holds `Memory.unlisted`. -/
def Memory.cellsWf (lo hi : Nat) : List (Nat × Word) → Bool
  | [] => true
  | (a, v) :: rest =>
    decide (lo ≤ a) && decide (a < hi) && decide (v ≠ Memory.unlisted) && Memory.cellsWf (a + 1) hi rest

/-- The canonical form, of a memory whose size R13 allows (1 <= MEM_WORDS <= 2^32): equal memories are equal data. -/
def Memory.wf (m : Memory) : Bool :=
  decide (1 ≤ m.words) && decide (m.words ≤ 2 ^ 32) && Memory.cellsWf 0 m.words m.cells

/-- R345: word i of the list is put at address `a + i`, in order. -/
def Memory.storeFrom (cells : List (Nat × Word)) (a : Nat) : List Word → List (Nat × Word)
  | [] => cells
  | v :: rest => Memory.storeFrom (Memory.update cells a v) (a + 1) rest

/-- A memory of a given size whose first words are given (R50, R57: MEM_WORDS and MEM_INIT are arguments of the
model); words beyond the size are dropped. -/
def Memory.ofWords (words : Nat) (init : List Word) : Memory where
  words := words
  cells := Memory.storeFrom [] 0 (init.take words)

/-- R345: the loader. Word i of the image goes to address i, each integer reduced modulo 2^32; an image longer than
memory is refused; words beyond the image keep what they held. -/
def Memory.load? (m : Memory) (image : List Int) : Option Memory :=
  if image.length ≤ m.words then
    some { m with cells := Memory.storeFrom m.cells 0 (image.map u32) }
  else none

end Sys2Proof.Machine
end

