-- ==== Sys2Proof/Machine/State.lean ====
section
/-! DEFINITION. The machine's state: everything spec/10_state.md gives it (rules R20 to R42), as plain data; the fault
values (spec/60_exceptions.md rule R305); the refusals; and the state after power-on reset (rule R40). -/

namespace Sys2Proof.Machine

/-- R305: the fault values, each with the information the spec records with it. A faulting step RECORDS one of these
in `State.fault` and is a step like any other (R161, R306); no step ends the machine outside its own state. -/
inductive Fault where
  /-- R307, code 1. Recorded by every step whose pc is at or beyond MEM_WORDS. `a` is the pc. Safe: the machine
  stops where the document defines no outcome (decision D6). -/
  | fetchOutOfRange (a : Word)
  /-- R308, code 2. Recorded by every step that fetches a word `w` whose op field names no opcode, whatever its cond
  field. Safe (decision D7). -/
  | illegalOpcode (a w : Word)
  /-- R309, code 3. Recorded by a satisfied LOAD whose effective address `ea` is not valid. Safe (decision D6). -/
  | loadOutOfRange (a ea : Word)
  /-- R310, code 4. Recorded by a satisfied STORE whose effective address `ea` is not valid. Safe (decision D6). -/
  | storeOutOfRange (a ea : Word)
  deriving DecidableEq, Repr

/-- The reasons for which the model gives no next state. No step gives either: every instruction has its meaning. -/
inductive Refusal where
  /-- An instruction that has no meaning yet. Raised by nothing: all seven have theirs. Safe. -/
  | notModelled (mnemonic : String)
  /-- R345, decision D19: the `load` command of an image longer than memory. Raised by `Machine.command` alone,
  never by a step. Safe: memory is unchanged. -/
  | imageTooLong (length : Nat)
  deriving DecidableEq, Repr

/-- The state at a glance (10_state.md section 1). Slot 0 is a constant and has no cell (R21); slot 15 IS `pc` (R23);
`regs` are slots 1 to 14, slot i at index i - 1 (R22). -/
structure State where
  regs   : Vector Word 14
  pc     : Word
  flag   : CondFlag
  halted : Bool
  fault  : Option Fault
  mem    : Memory
  deriving DecidableEq, Repr

/-- R40, R346: power-on with the parameters of a configuration: every register slot at RESET_REGS, the flag at
RESET_FLAG, running, no fault, memory as MEM_INIT gives it. -/
def State.powerOn (c : Config) : State where
  regs   := Vector.replicate 14 c.resetReg
  pc     := c.resetReg
  flag   := c.resetFlag
  halted := false
  fault  := none
  mem    := Memory.ofWords c.memWords c.memInit

/-- R40: the machine right after power-on reset, nothing loaded (assumption log 2 and 3 for the two open
parameters). -/
def State.reset : State := State.powerOn Config.js32

end Sys2Proof.Machine
end

