-- ==== Sys2Proof/Machine/Ops.lean ====
section
/-! DEFINITION. The named operations every meaning is built from: reading and writing a register slot (spec/10_state.md
rules R20 to R25), the pc advance (R26, R156), the flag write (R28), halting (R31), and the ONE way a fault is taken
(spec/60_exceptions.md rules R305, R306, R313). There is no return from a fault (R314). -/

namespace Sys2Proof.Machine

/-- R21, R24: the slot that always reads 0. -/
def zeroReg : Reg := 0

/-- R23, R24: the slot that is the program counter. -/
def pcReg : Reg := 15

/-- R20 to R23: `x[i]`. Slot 0 reads 0, slot 15 reads the pc, slots 1 to 14 read their cell. -/
def State.readReg (s : State) (i : Reg) : Word :=
  if i = pcReg then s.pc
  else if h : 1 ≤ i.val ∧ i.val ≤ 14 then s.regs[i.val - 1]'(by omega)
  else 0

/-- R20 to R23: `x[i] <- v`. A write of slot 0 changes nothing, a write of slot 15 is a write of the pc. -/
def State.writeReg (s : State) (i : Reg) (v : Word) : State :=
  if i = pcReg then { s with pc := v }
  else if h : 1 ≤ i.val ∧ i.val ≤ 14 then { s with regs := s.regs.set (i.val - 1) v (by omega) }
  else s

/-- R26, R156: `x[15] <- u32(a + 1)`, a the address of the instruction. -/
def State.advancePc (s : State) : State := { s with pc := s.pc + 1 }

/-- R28: the write of the condition flag. -/
def State.setFlag (s : State) (f : CondFlag) : State := { s with flag := f }

/-- R31, R220: the halted flag set. -/
def State.setHalted (s : State) : State := { s with halted := true }

/-- The state with another memory bound in place of its own (the result of a store or of a load). -/
def State.setMem (s : State) (m : Memory) : State := { s with mem := m }

/-- R306, R313: `raise F(info)`: the fault status is set and nothing else changes, the pc included. -/
def State.raise (s : State) (f : Fault) : State := { s with fault := some f }

/-- R305: the spec's code of a fault value. -/
def Fault.code : Fault → Nat
  | .fetchOutOfRange _   => 1
  | .illegalOpcode _ _   => 2
  | .loadOutOfRange _ _  => 3
  | .storeOutOfRange _ _ => 4

/-- R305: the code of the fault status; 0 is None. -/
def State.faultCode (s : State) : Nat := (s.fault.map Fault.code).getD 0

/-- R32: the engine's three states. -/
inductive EngineState where
  | running | halted | faulted
  deriving DecidableEq, Repr

/-- R32: FAULTED is `fault != None`, HALTED is `halted = true`, RUNNING is neither. -/
def State.engine (s : State) : EngineState :=
  if s.fault ≠ none then .faulted else if s.halted then .halted else .running

/-- R151: a step does nothing while the machine is halted or faulted. -/
def State.stopped (s : State) : Bool := decide (s.engine ≠ .running)

/-- R153: whether an instruction with this cond field executes in this state. -/
def State.satisfies (s : State) (cond : CondFlag) : Bool := satisfied s.flag cond

end Sys2Proof.Machine
end

