-- ==== Sys2Proof/Machine/Operands.lean ====
section
/-! DEFINITION. The one operand form of all seven opcodes (spec/40_engine_alu.md rule R154) and the one addressing mode
of LOAD and STORE (spec/42_memory_ops.md rule R200). All are read in the state before the pc advances, so slot 15
reads the instruction's own address (R231). -/

namespace Sys2Proof.Machine

/-- R154: `operand1 = x[src1]`. -/
def State.operand1 (s : State) (f : Fields) : Word := s.readReg f.src1

/-- R154: `operand2 = u32(offset + x[src2])`. -/
def State.operand2 (s : State) (f : Fields) : Word := u32 (f.offset + (s.readReg f.src2).toNat)

/-- R155: the ALU called with the instruction's own opcode and the two operands. -/
def State.aluOut (s : State) (op : OpCode) (f : Fields) : Word × CondFlag :=
  alu op (s.operand1 f) (s.operand2 f)

/-- R155, R200: for LOAD and STORE the ALU's result is the effective address, a word address (R51). -/
def State.effectiveAddr (s : State) (op : OpCode) (f : Fields) : Word := (s.aluOut op f).1

end Sys2Proof.Machine
end

