-- ==== Sys2Proof/Machine/Arithmetic.lean ====
section
/-! DEFINITION. ADD, SUB, MUL, DIV (spec/41_arithmetic.md rules R180 to R184). -/

namespace Sys2Proof.Machine

/-- R180: what the four have in common. The pc advances, then `x[target] <- result` (nothing for slot 0, the pc for
slot 15), and the flag takes the ALU's flag whatever the target is. -/
def State.arith (s : State) (op : OpCode) (f : Fields) : State :=
  let out := s.aluOut op f
  (s.advancePc.writeReg f.target out.1).setFlag out.2

/-- R181, R160: ADD. -/
def execAdd (f : Fields) (s : State) : Host.Outcome State Fault Refusal :=
  if s.satisfies f.cond then .next (s.arith .add f) else .next s.advancePc

/-- R182, R160: SUB. -/
def execSub (f : Fields) (s : State) : Host.Outcome State Fault Refusal :=
  if s.satisfies f.cond then .next (s.arith .sub f) else .next s.advancePc

/-- R183, R160: MUL. -/
def execMul (f : Fields) (s : State) : Host.Outcome State Fault Refusal :=
  if s.satisfies f.cond then .next (s.arith .mul f) else .next s.advancePc

/-- R184, R301, R160: DIV. Division by zero is an ordinary result: 0, with flag V. -/
def execDiv (f : Fields) (s : State) : Host.Outcome State Fault Refusal :=
  if s.satisfies f.cond then .next (s.arith .div f) else .next s.advancePc

end Sys2Proof.Machine
end

