-- ==== Sys2Proof/Machine/MemoryOps.lean ====
section
/-! DEFINITION. LOAD and STORE (spec/42_memory_ops.md rules R200 to R202). The address is checked before anything is
written (spec/90_conflicts.md C11), so a faulting step changes the fault status alone. -/

namespace Sys2Proof.Machine

/-- R201: the effect of a satisfied LOAD. The ALU's flag of the address sum is discarded (R157). -/
def State.loadEffect (s : State) (f : Fields) : State :=
  let ea := s.effectiveAddr .load f
  match s.mem.read? ea.toNat with
  | none   => s.raise (.loadOutOfRange s.pc ea)
  | some v => s.advancePc.writeReg f.target v

/-- R202: the effect of a satisfied STORE. `x[target]` is read after the pc advance: slot 15 stores a + 1 (R235). -/
def State.storeEffect (s : State) (f : Fields) : State :=
  let ea := s.effectiveAddr .store f
  match s.mem.write? ea.toNat (s.advancePc.readReg f.target) with
  | none   => s.raise (.storeOutOfRange s.pc ea)
  | some m => s.advancePc.setMem m

/-- R201, R160: LOAD. -/
def execLoad (f : Fields) (s : State) : Host.Outcome State Fault Refusal :=
  if s.satisfies f.cond then .next (s.loadEffect f) else .next s.advancePc

/-- R202, R160: STORE. -/
def execStore (f : Fields) (s : State) : Host.Outcome State Fault Refusal :=
  if s.satisfies f.cond then .next (s.storeEffect f) else .next s.advancePc

end Sys2Proof.Machine
end

