-- ==== Sys2Proof/Machine/System.lean ====
section
/-! DEFINITION. HALT (spec/43_halt.md rule R220). -/

namespace Sys2Proof.Machine

/-- R220, R160: HALT advances the pc, then sets `halted`; the operand fields are ignored. -/
def execHalt (f : Fields) (s : State) : Host.Outcome State Fault Refusal :=
  if s.satisfies f.cond then .next s.advancePc.setHalted else .next s.advancePc

end Sys2Proof.Machine
end

