-- ==== Sys2Proof/Machine/Fetch.lean ====
section
/-! DEFINITION. Fetch, decode and the step event (spec/40_engine_alu.md rules R150 to R152, spec/00_scope.md rule
R8). -/

namespace Sys2Proof.Machine

/-- R8: what the trace port carries: the instruction's address, the raw word, the decoded instruction. The tuple's
cpu-reference names the one CPU and has no hardware meaning (91_not_in_source.md N22). -/
structure StepEvent where
  address : Word
  word    : Word
  instr   : Instr
  deriving DecidableEq, Repr

/-- What the first half of a step finds. -/
inductive Fetched where
  /-- R151: halted or faulted; the step does nothing. -/
  | idle
  /-- R307, R308: fetch or decode fails; no event is published. -/
  | fails (f : Fault)
  /-- R152: fetched and decoded; the event is published before anything changes. -/
  | event (e : StepEvent)
  deriving DecidableEq, Repr

/-- R150 to R152: the guard, the fetch at the pc and the decoding, in this order (R312). -/
def State.fetch (s : State) : Fetched :=
  if s.stopped then .idle
  else match s.mem.read? s.pc.toNat with
    | none   => .fails (.fetchOutOfRange s.pc)
    | some w =>
      match decode w with
      | .undeclared _ => .fails (.illegalOpcode s.pc w)
      | .valid i      => .event ⟨s.pc, w, i⟩

/-- R8, R152: the step event of the step that starts in this state, if it publishes one. -/
def State.stepEvent (s : State) : Option StepEvent :=
  match s.fetch with
  | .event e => some e
  | .idle    => none
  | .fails _ => none

end Sys2Proof.Machine
end

