-- ==== Sys2Proof/Machine/Step.lean ====
section
/-! DEFINITION. One step of the engine (spec/40_engine_alu.md rule R150), total on every state (R161), and the placing of
one instruction word where the next step fetches it. -/

namespace Sys2Proof.Machine

/-- R150: guard, fetch, decode, execute. A fault is taken by `State.raise` and is a next state (R161, R306). -/
def step (s : State) : Host.Outcome State Fault Refusal :=
  match s.fetch with
  | .idle    => .next s
  | .fails f => .next (s.raise f)
  | .event e => exec e.instr s

/-- The state with the word `w` (its low `nbits` bits) placed where the next step fetches, and the engine running, so
that the next step runs it. A pc outside memory is set to 0, where a memory always has a word. -/
def State.withFetchWord (s : State) (nbits w : Nat) : State :=
  let a : Word := if s.mem.valid s.pc.toNat then s.pc else 0
  match s.mem.write? a.toNat (BitVec.ofNat 32 (w % 2 ^ nbits)) with
  | none   => s
  | some m => { s with pc := a, halted := false, fault := none, mem := m }

end Sys2Proof.Machine
end

