-- ==== Sys2Proof/Machine/Text.lean ====
section
/-! DEFINITION. The text of an instruction: the CondFlag names (spec/30_encoding.md rule R93), the register names
(spec/10_state.md rule R24), the canonical text form (rule R110), and the readers of numbers and names the assembler
uses (spec/45_assembler.md rules R253 to R255, R259). A text is a list of characters. -/

namespace Sys2Proof

/-- Source and object text, one line or a part of one. -/
abbrev Text := List Char

/-! ### Numbers -/

/-- A natural number in decimal, no leading zeros. -/
def natText (n : Nat) : Text := Nat.toDigits 10 n

/-- R110: an integer in decimal, "a minus sign for negatives, no plus sign". -/
def intText (v : Int) : Text :=
  if v < 0 then '-' :: natText v.natAbs else natText v.natAbs

/-- The value of a hexadecimal (so also of a decimal) digit. DESIGN CHOICE (assumption log 9): the spec has no rule on
case (N19); the digits a to f are read as capitals and as small letters. -/
def digitValue (c : Char) : Option Nat :=
  if '0' ≤ c ∧ c ≤ '9' then some (c.toNat - 48)
  else if 'a' ≤ c ∧ c ≤ 'f' then some (c.toNat - 87)
  else if 'A' ≤ c ∧ c ≤ 'F' then some (c.toNat - 55)
  else none

/-- Digits of a base read on from a value; none if a character is no digit of the base. -/
def readDigits (base : Nat) : Nat → Text → Option Nat
  | acc, [] => some acc
  | acc, c :: rest =>
    match digitValue c with
    | some d => if d < base then readDigits base (acc * base + d) rest else none
    | none   => none

/-- A nonempty string of digits of a base. -/
def readNat (base : Nat) (t : Text) : Option Nat :=
  if t = [] then none else readDigits base 0 t

/-- R253: a "signed decimal". -/
def readInt : Text → Option Int
  | '-' :: t => (readNat 10 t).map fun n : Nat => -(n : Int)
  | t        => (readNat 10 t).map fun n : Nat => (n : Int)

/-- R254, R259: a DATA value, "decimal or `0x`-hex"; a negative decimal is admitted and reduced later.
DESIGN CHOICE (assumption log 9): `0X` is not read for `0x`, a hexadecimal value has no sign, and leading zeros
are read. -/
def readData : Text → Option Int
  | '0' :: 'x' :: t => (readNat 16 t).map fun n : Nat => (n : Int)
  | t               => readInt t

/-! ### Names -/

/-- R94: the opcode's name in capitals. -/
def OpCode.text : OpCode → Text
  | .halt  => ['H', 'A', 'L', 'T']
  | .load  => ['L', 'O', 'A', 'D']
  | .store => ['S', 'T', 'O', 'R', 'E']
  | .add   => ['A', 'D', 'D']
  | .sub   => ['S', 'U', 'B']
  | .mul   => ['M', 'U', 'L']
  | .div   => ['D', 'I', 'V']

/-- R253: an opcode name read. -/
def readOp (t : Text) : Option OpCode := OpCode.all.find? fun op => op.text == t

/-- R24: `r0` to `r15`. -/
def regText (r : Reg) : Text := 'r' :: natText r.val

/-- R24, R254: "`r0`..`r15`, aliases `zero`=r0, `pc`=r15". -/
def readReg (t : Text) : Option Reg :=
  if t = ['z', 'e', 'r', 'o'] then some 0
  else if t = ['p', 'c'] then some 15
  else (List.finRange 16).find? fun r => regText r == t

/-- R93: the letters of a CondFlag in the "fixed order M,Z,P,V". -/
def CondFlag.letters (c : CondFlag) : Text :=
  (if CondFlag.inter c CondFlag.M ≠ CondFlag.NEVER then ['M'] else []) ++
  (if CondFlag.inter c CondFlag.Z ≠ CondFlag.NEVER then ['Z'] else []) ++
  (if CondFlag.inter c CondFlag.P ≠ CondFlag.NEVER then ['P'] else []) ++
  (if CondFlag.inter c CondFlag.V ≠ CondFlag.NEVER then ['V'] else [])

/-- R93: "canonical name for exact matches, else letters concatenated in fixed order M,Z,P,V". -/
def CondFlag.text (c : CondFlag) : Text :=
  if c = CondFlag.NEVER then ['N', 'E', 'V', 'E', 'R']
  else if c = CondFlag.ALWAYS then ['A', 'L', 'W', 'A', 'Y', 'S']
  else CondFlag.letters c

/-- R255: the flag of one letter. -/
def readLetter (c : Char) : Option CondFlag :=
  if c = 'M' then some CondFlag.M
  else if c = 'Z' then some CondFlag.Z
  else if c = 'P' then some CondFlag.P
  else if c = 'V' then some CondFlag.V
  else none

/-- R255: the union of a string of letters; order and repetition do not matter. -/
def readLetters : Text → Option CondFlag
  | []        => some CondFlag.NEVER
  | c :: rest =>
    match readLetter c, readLetters rest with
    | some a, some b => some (CondFlag.union a b)
    | _, _           => none

/-- R255, decision D21: one of the six names, or a nonempty string of letters from M, Z, P, V. -/
def readPred (t : Text) : Option CondFlag :=
  if t = ['N', 'E', 'V', 'E', 'R'] then some CondFlag.NEVER
  else if t = ['A', 'L', 'W', 'A', 'Y', 'S'] then some CondFlag.ALWAYS
  else if t = [] then none
  else readLetters t

/-! ### The canonical text form -/

/-- R110: `/PRED`, "omitted exactly when cond==ALWAYS". -/
def predText (c : CondFlag) : Text := if c = CondFlag.ALWAYS then [] else '/' :: CondFlag.text c

/-- R110: `OPCODE[/PRED]   rTARGET,rSRC1,rSRC2[OFFSET]` with three spaces (decision D20). -/
def Instr.text (i : Instr) : Text :=
  let f := i.fields
  i.op.text ++ predText f.cond ++ [' ', ' ', ' '] ++ regText f.target ++ [','] ++ regText f.src1 ++ [','] ++
    regText f.src2 ++ ['['] ++ intText f.offset ++ [']']

end Sys2Proof
end

