-- ==== Sys2Proof/Machine/Assembler.lean ====
section
/-! DEFINITION. The two-phase assembler and the object format as functions from text to words
(spec/45_assembler.md rules R250 to R263, R270 to R272; in scope by spec/00_scope.md rule R12 as supporting material).
Error counting and thresholds are out of scope (R12's second table). Where the spec gives no lexical rule
(91_not_in_source.md N19, N20) assumption log 9 says what is read here. -/

namespace Sys2Proof.Assembler

/-- R254, R260, section 7: the kinds of error of one line. -/
inductive AsmError where
  /-- R251, R262: no form matches the line. -/
  | syntaxError
  /-- R260: a reference to a label that no line defines. -/
  | undefinedLabel
  /-- R254: an unknown opcode, predicate or register name. -/
  | invalidMnemonic
  deriving DecidableEq, Repr

/-- R250: the five classes of line, with the parts of each. A predicate is kept as text until Phase 2. -/
inductive Body where
  | comment
  | full (op : Text) (pred : Option Text) (target src1 src2 : Text) (offset : Int)
  | data (value : Int)
  | memop (op : Text) (pred : Option Text) (target label : Text)
  | jump (pred : Option Text) (label : Text)
  deriving DecidableEq, Repr

/-- R250: a line is an optional label definition and a body. -/
structure Line where
  label : Option Text
  body  : Body
  deriving DecidableEq, Repr

/-! ### Lexical elements (R253, R254) -/

def isSpace (c : Char) : Bool := c == ' ' || c == '\t' || c == '\r'

/-- A text without the white space around it. -/
def trim (t : Text) : Text := ((t.dropWhile isSpace).reverse.dropWhile isSpace).reverse

/-- R254: a comment runs from `#` or `;` to the end of the line. -/
def dropComment (t : Text) : Text := t.takeWhile fun c => !(c == '#' || c == ';')

def isLetter (c : Char) : Bool := ('a' ≤ c && c ≤ 'z') || ('A' ≤ c && c ≤ 'Z')

def isNameChar (c : Char) : Bool := isLetter c || ('0' ≤ c && c ≤ '9') || c == '_'

/-- R254: a label is `[A-Za-z][A-Za-z0-9_]*`. -/
def isName : Text → Bool
  | []        => false
  | c :: rest => isLetter c && rest.all isNameChar

/-- The parts of a text between separators; one part more than there are separators. -/
def splitAt (sep : Char) : Text → List Text
  | []        => [[]]
  | c :: rest =>
    if c = sep then [] :: splitAt sep rest
    else match splitAt sep rest with
      | []      => [[c]]
      | p :: ps => (c :: p) :: ps

/-- The text before the first separator, and the text after it if there is one. -/
def cutAt (sep : Char) : Text → Text × Option Text
  | []        => ([], none)
  | c :: rest =>
    if c = sep then ([], some rest)
    else ((c :: (cutAt sep rest).1), (cutAt sep rest).2)

/-! ### Classification (R250, R251) -/

/-- R254: the label definition at the start of a line, if there is one, and the rest. -/
def cutLabel (t : Text) : Option Text × Text :=
  match cutAt ':' t with
  | (name, some rest) => if isName name then (some name, rest) else (none, t)
  | (_, none)         => (none, t)

/-- R253: `src2[offset]`, the offset a "signed decimal in brackets; default 0". -/
def readSrc2 (t : Text) : Option (Text × Int) :=
  match cutAt '[' t with
  | (r, none)      => some (trim r, 0)
  | (r, some rest) =>
    match cutAt ']' rest with
    | (digits, some []) => (readInt (trim digits)).map fun v => (trim r, v)
    | (_, _)            => none

/-- R250, R251: the forms with an opcode. Three operands are FULL; a register and a label are MEMOP. Every opcode,
predicate, register and label must have the form of a name (assumption log 9): a second label, a stray separator or a
missing part matches no form, while a name that names nothing is Phase 2's InvalidMnemonicError (R254). -/
def readOperands (op : Text) (pred : Option Text) (operands : Text) : Option Body :=
  if isName op && pred.all isName then
    match splitAt ',' operands with
    | [target, src1, src2] =>
      match readSrc2 (trim src2) with
      | some (src2, offset) =>
        if isName (trim target) && isName (trim src1) && isName src2 then
          some (.full op pred (trim target) (trim src1) src2 offset)
        else none
      | none => none
    | [target, label] =>
      if isName (trim target) && isName (trim label) then some (.memop op pred (trim target) (trim label)) else none
    | _ => none
  else none

/-- R250: the body of a line: the first word chooses among DATA, JUMP and the forms with an opcode. -/
def readBody (t : Text) : Option Body :=
  let t := trim t
  if t = [] then some .comment
  else
    let word := t.takeWhile fun c => !isSpace c
    let rest := trim (t.drop word.length)
    let head := cutAt '/' word
    if head.1 = ['D', 'A', 'T', 'A'] then
      if head.2 ≠ none then none
      else if rest = [] then some (.data 0)
      else (readData rest).map .data
    else if head.1 = ['J', 'U', 'M', 'P'] then
      if head.2.all isName && isName rest then some (.jump head.2 rest) else none
    else readOperands head.1 head.2 rest

/-- R250, R251: a line classified and taken apart; none where no form matches. -/
def readLine (t : Text) : Option Line :=
  let cut := cutLabel (trim (dropComment t))
  (readBody cut.2).map fun b => ⟨cut.1, b⟩

/-- R252: a COMMENT line consumes no address; the other four classes consume one. -/
def Line.words (l : Line) : Nat :=
  match l.body with
  | .comment => 0
  | _        => 1

/-! ### Phase 1: labels and lowering -/

/-- A label table, the latest definition first. -/
abbrev Labels := List (Text × Nat)

/-- R252, R261: the table with a line's own label recorded at the address the line has, or that the next one will
have. -/
def Labels.define (labels : Labels) (l : Line) (address : Nat) : Labels :=
  match l.label with
  | some name => (name, address) :: labels
  | none      => labels

/-- R252: Pass A, from an address on. DESIGN CHOICE (assumption log 9): a line no form matches is in no class, consumes no
address, and a label defined on it is not recorded. -/
def passA : Nat → Labels → List Text → Labels
  | _, labels, [] => labels
  | address, labels, t :: rest =>
    match readLine t with
    | some l => passA (address + l.words) (labels.define l address) rest
    | none   => passA address labels rest

/-- R261: "last writer wins". -/
def Labels.address (labels : Labels) (name : Text) : Option Nat :=
  (labels.find? fun p => p.1 == name).map (·.2)

/-- The predicate of a source line as it stands in the lowered one. -/
def sourcePred : Option Text → Text
  | some p => '/' :: p
  | none   => []

/-- R256, R257: the lowered operands after the target, `r0, r15[displacement]`. -/
def lowered (head target : Text) (displacement : Int) : Text :=
  head ++ [' '] ++ target ++ [',', ' ', 'r', '0', ',', ' ', 'r', '1', '5', '['] ++ intText displacement ++ [']']

/-- R256: `opcode[/pred] target, r0, r15[displacement]`, "with the label preserved as a trailing comment".
DESIGN CHOICE (assumption log 9): the comment is one blank, `#` and the label, and it stands in place of any comment
of the source line. -/
def lowerMemop (op : Text) (pred : Option Text) (target label : Text) (displacement : Int) : Text :=
  lowered (op ++ sourcePred pred) target displacement ++ [' ', '#'] ++ label

/-- R257: `ADD[/pred] r15, r0, r15[displacement]`. DESIGN CHOICE (assumption log 9): no comment of the source line is
kept. -/
def lowerJump (pred : Option Text) (displacement : Int) : Text :=
  lowered (['A', 'D', 'D'] ++ sourcePred pred) ['r', '1', '5'] displacement

/-- R256, R257, R260: one line lowered; FULL, DATA and COMMENT lines pass through verbatim. -/
def lowerLine (labels : Labels) (address : Nat) (t : Text) (l : Line) : Except AsmError Text :=
  match l.body with
  | .memop op pred target label =>
    match labels.address label with
    | some b => .ok (lowerMemop op pred target label ((b : Int) - address))
    | none   => .error .undefinedLabel
  | .jump pred label =>
    match labels.address label with
    | some b => .ok (lowerJump pred ((b : Int) - address))
    | none   => .error .undefinedLabel
  | .comment          => .ok t
  | .data _           => .ok t
  | .full _ _ _ _ _ _ => .ok t

/-- Pass B, from an address on, with the table of Pass A; an error is of its own line alone. -/
def passB (labels : Labels) : Nat → List Text → List (Except AsmError Text)
  | _, [] => []
  | address, t :: rest =>
    match readLine t with
    | some l => lowerLine labels address t l :: passB labels (address + l.words) rest
    | none   => .error .syntaxError :: passB labels address rest

/-- Phase 1: Pass A and Pass B from address 0 (R252). -/
def phase1 (source : List Text) : List (Except AsmError Text) := passB (passA 0 [] source) 0 source

/-! ### Phase 2: words -/

/-- R262: the record of a FULL line, "default predicate=ALWAYS", reserved 0. -/
def readInstr (op : Text) (pred : Option Text) (target src1 src2 : Text) (offset : Int) : Option Instr :=
  match readOp op, (match pred with | some p => readPred p | none => some CondFlag.ALWAYS),
      readReg target, readReg src1, readReg src2 with
  | some o, some c, some t, some a, some b => some (o.instr ⟨c, t, a, b, offset, 0⟩)
  | _, _, _, _, _ => none

/-- R262: one line to at most one word: FULL is encoded, DATA is the literal modulo 2^32 (R259), COMMENT gives none,
MEMOP and JUMP match no pattern of this phase. -/
def phase2Line (t : Text) : Except AsmError (Option Word) :=
  match readLine t with
  | none   => .error .syntaxError
  | some l =>
    match l.body with
    | .comment => .ok none
    | .data v  => .ok (some (u32 v))
    | .full op pred target src1 src2 offset =>
      match readInstr op pred target src1 src2 offset with
      | some i => .ok (some (encode i))
      | none   => .error .invalidMnemonic
    | .memop _ _ _ _ => .error .syntaxError
    | .jump _ _      => .error .syntaxError

/-- The two phases joined by the text between them alone (R263): for each source line its word, no word, or its
error. -/
def assembleLines (source : List Text) : List (Except AsmError (Option Word)) :=
  (phase1 source).map fun r =>
    match r with
    | .ok t    => phase2Line t
    | .error e => .error e

/-- The words emitted, in order: a line with an error produces none (R260). -/
def emitted : List (Except AsmError (Option Word)) → List Word
  | []                    => []
  | .ok (some w) :: rest  => w :: emitted rest
  | .ok none :: rest      => emitted rest
  | .error _ :: rest      => emitted rest

/-- The word stream of a source text. -/
def assemble (source : List Text) : List Word := emitted (assembleLines source)

/-! ### Object format -/

/-- R270: "one decimal integer per line, in address order". -/
def objectText (words : List Word) : List Text := words.map fun w => natText w.toNat

/-- R270, R345: the integers the loader reads from an object file; none if a line is no decimal
integer. DESIGN CHOICE (assumption log 9): blanks around the integer are read over, and any other line (an empty one
too) leaves no image. -/
def readObject : List Text → Option (List Int)
  | []        => some []
  | t :: rest =>
    match readInt (trim t), readObject rest with
    | some v, some vs => some (v :: vs)
    | _, _            => none

end Sys2Proof.Assembler
end

