-- ==== Sys2Proof/Machine/Commands.lean ====
section
/-! DEFINITION. The host's command port (spec/00_scope.md rule R7): `reset` (spec/70_reset_and_hazards.md rule R340),
`load` (R345), `run` (spec/40_engine_alu.md rules R162, R163) and `step`; and the memory accesses of a step
(spec/20_memory.md rule R56, spec/00_scope.md rule R6). -/

namespace Sys2Proof.Machine

/-- R340: every piece of state of the core takes its value of R40; the bound memory is not written. -/
def State.resetCommand (s : State) : State := State.reset.setMem s.mem

/-- R162, R341: the two writes of `run(from_addr)`, "pc=from_addr, halted=false", and nothing else (R41). -/
def State.beginRun (s : State) (fromAddr : Word) : State := { s with pc := fromAddr, halted := false }

/-- R162: `while not halted and fault = None do Step()`, at most `fuel` times. R163: a run need not end; the fuel is
the host's step cap, and a run it cuts short is left as the last step left it. -/
def runLoop : Nat → State → Host.Outcome State Fault Refusal
  | 0, s => .next s
  | fuel + 1, s =>
    if s.stopped then .next s
    else match step s with
      | .next t    => runLoop fuel t
      | .fault r   => .fault r
      | .refused r => .refused r

/-- R7: the host's four commands. `run` carries the host's step cap. -/
inductive Command where
  | reset
  | load (image : List Int)
  | run (fromAddr : Word) (fuel : Nat)
  | step
  deriving DecidableEq, Repr

/-- R7: what a command does. Only `load` can be refused (R345: an image longer than memory). -/
def command (c : Command) (s : State) : Host.Outcome State Fault Refusal :=
  match c with
  | .reset => .next s.resetCommand
  | .load image =>
    match s.mem.load? image with
    | none   => .refused (.imageTooLong image.length)
    | some m => .next (s.setMem m)
  | .run fromAddr fuel => runLoop fuel (s.beginRun fromAddr)
  | .step => Sys2Proof.Machine.step s

/-- R6, R56: one access on the memory port, always of one word. -/
inductive Access where
  | fetch (a : Nat)
  | read (a : Nat)
  | write (a : Nat) (v : Word)
  deriving DecidableEq, Repr

/-- R56: the second access of a step: one read for a satisfied LOAD, one write for a satisfied STORE, none otherwise;
and none where the address check fails before it (R59). -/
def State.dataAccess (s : State) (i : Instr) : List Access :=
  match i with
  | .load f =>
    let ea := (s.effectiveAddr .load f).toNat
    if s.satisfies f.cond && s.mem.valid ea then [.read ea] else []
  | .store f =>
    let ea := (s.effectiveAddr .store f).toNat
    if s.satisfies f.cond && s.mem.valid ea then [.write ea (s.advancePc.readReg f.target)] else []
  | .halt _ => []
  | .add _  => []
  | .sub _  => []
  | .mul _  => []
  | .div _  => []

/-- R56: the accesses of the step that starts in this state, in order: the fetch, where the pc is valid, then the
instruction's own. -/
def State.accesses (s : State) : List Access :=
  match s.fetch with
  | .idle => []
  | .fails (.illegalOpcode a _) => [.fetch a.toNat]
  | .fails _ => []
  | .event e => .fetch e.address.toNat :: s.dataAccess e.instr

end Sys2Proof.Machine
end

