-- ==== Sys2Proof/Safety.lean ====
section
/-! DEFINITION. The terms claims are stated in: final and terminal states (spec/10_state.md rule R32), the legal values
of the flag (R30), precise faults (spec/60_exceptions.md rule R306), the invariant of a step, and what it is for two
states to agree outside a register slot or on all of memory. -/

namespace Sys2Proof.Machine

/-- R32, R164: the program executed a satisfied HALT. FAULTED is never final (R305). -/
def State.final (s : State) : Prop := s.halted = true ∧ s.fault = none

/-- R30: the flag holds ALWAYS (after reset) or exactly one of M, Z, P, V; never NEVER. -/
def FlagLegal (f : CondFlag) : Prop :=
  f = CondFlag.ALWAYS ∨ f = CondFlag.M ∨ f = CondFlag.Z ∨ f = CondFlag.P ∨ f = CondFlag.V

/-- R306: "Faults are therefore precise": a recorded fault describes the very state it stands in: the pc still holds
the faulting instruction's address, and fetching there, decoding there or addressing memory from there fails as the
record says. -/
def State.FaultPrecise (s : State) : Prop :=
  match s.fault with
  | none => True
  | some (.fetchOutOfRange a) => s.halted = false ∧ a = s.pc ∧ s.mem.valid a.toNat = false
  | some (.illegalOpcode a w) =>
    s.halted = false ∧ a = s.pc ∧ s.mem.read? a.toNat = some w ∧ ∃ c, decode w = .undeclared c
  | some (.loadOutOfRange a ea) =>
    s.halted = false ∧ a = s.pc ∧ s.mem.valid ea.toNat = false ∧
      ∃ w f, s.mem.read? a.toNat = some w ∧ decode w = .valid (.load f) ∧ s.satisfies f.cond = true ∧
        s.effectiveAddr .load f = ea
  | some (.storeOutOfRange a ea) =>
    s.halted = false ∧ a = s.pc ∧ s.mem.valid ea.toNat = false ∧
      ∃ w f, s.mem.read? a.toNat = some w ∧ decode w = .valid (.store f) ∧ s.satisfies f.cond = true ∧
        s.effectiveAddr .store f = ea

/-- The invariant of a step: memory in canonical form, a legal flag, a precise fault. -/
structure State.Inv (s : State) : Prop where
  memWf        : s.mem.wf = true
  flagLegal    : FlagLegal s.flag
  faultPrecise : s.FaultPrecise

/-- Every register slot but the pc and slot `r` reads in `t` what it reads in `s`. -/
def SameSlotsExcept (r : Reg) (s t : State) : Prop :=
  ∀ q : Reg, q ≠ r → q ≠ pcReg → t.readReg q = s.readReg q

/-- Every word of memory reads in `t` what it reads in `s`, and the same addresses are valid. -/
def SameMemory (s t : State) : Prop := ∀ a : Nat, t.mem.read? a = s.mem.read? a

/-- The engine's status is the same in both: halted flag and fault status. -/
def SameStatus (s t : State) : Prop := t.halted = s.halted ∧ t.fault = s.fault

/-- R180: what a satisfied ADD, SUB, MUL or DIV leaves unchanged. The pc advances unless the target is the pc; every
slot but the target, all of memory and the engine's status are as before. -/
def ArithFrame (f : Fields) (s t : State) : Prop :=
  (f.target ≠ pcReg → t.pc = s.pc + 1) ∧ SameSlotsExcept f.target s t ∧ SameMemory s t ∧ SameStatus s t

/-- R181 to R184, R201, R202: the sum x[src1] + x[src2] + offset modulo 2^32. -/
def SumOfOperands (s : State) (f : Fields) : Word :=
  s.readReg f.src1 + s.readReg f.src2 + BitVec.ofInt 32 f.offset

/-- R145: the flag of a 32-bit result, written out with the flag bits of R27. -/
def SignFlag (r : Word) : CondFlag := if r = 0 then 2 else if r.msb = true then 1 else 4

/-- R181 to R184, R201, R202, R220: `match | cond<<22 | target<<18 | src1<<14 | src2<<10 | (offset mod 1024)`. -/
def TableWord (matchWord : Nat) (f : Fields) : Word :=
  BitVec.ofNat 32 (matchWord + f.cond.toNat * 2 ^ 22 + f.target.val * 2 ^ 18 + f.src1.val * 2 ^ 14 +
    f.src2.val * 2 ^ 10 + (f.offset % 1024).toNat)

/-- The four opcodes that write the flag (R28). -/
def writesFlag : Instr → Bool
  | .add _ | .sub _ | .mul _ | .div _ => true
  | .halt _ | .load _ | .store _ => false

end Sys2Proof.Machine
end

