-- ==== Sys2Proof/Certificates/Slice0/Obligations.lean ====
section
/-! DEFINITION. The statements about the model, each with the rule of spec/ it formalises. Where a statement rests on a
decision the spec marks as its own, or on a choice of this model, its docstring says so. -/

open Sys2Proof Sys2Proof.Machine Sys2Proof.Assembler

/-! ### The codec -/

/-- R82. -/
def Obligations.ExtractReadsFieldBits : Prop :=
  ∀ (F : BitField) (w : Word),
    F.extract w = w.toNat / 2 ^ F.low % 2 ^ F.width ∧
    F.extract w < 2 ^ F.width ∧
    (∀ k, (F.extract w).testBit k = (decide (k < F.width) && w.getLsbD (F.low + k))) ∧
    (F.low = 0 → F.high = 31 → F.extract w = w.toNat)

/-- R84: bits low to high become `value mod 2^width`, the others stay, for every integer value. -/
def Obligations.InsertReplacesFieldBits : Prop :=
  ∀ (F : BitField) (v : Int) (w : Word) (k : Nat), k < 32 →
    (F.insert v w).getLsbD k =
      if F.low ≤ k ∧ k ≤ F.high then (v % 2 ^ F.width).toNat.testBit (k - F.low) else w.getLsbD k

/-- R86; its last three clauses are marked as derived by the spec. -/
def Obligations.PackUnpackRoundTrip : Prop :=
  ∀ (F G : BitField) (v : Int) (w : Word),
    F.extract (F.insert (F.extract w) 0) = F.extract w ∧
    (F.extract (F.insert v w) : Int) = v % 2 ^ F.width ∧
    F.insert (F.extract w) w = w ∧
    (F.high < G.low ∨ G.high < F.low → G.extract (F.insert v w) = G.extract w)

/-- R85, R87 (its bijection and its last clause are marked as derived by the spec). -/
def Obligations.SignExtendIsStableBijection : Prop :=
  ∀ n : Nat, 1 ≤ n → n ≤ 32 →
    (∀ v : Int, 0 ≤ v → v < 2 ^ n →
      -(2 ^ (n - 1)) ≤ signExtend v n ∧ signExtend v n < 2 ^ (n - 1) ∧
      signExtend v n = if v < 2 ^ (n - 1) then v else v - 2 ^ n) ∧
    (∀ y : Int, -(2 ^ (n - 1)) ≤ y → y < 2 ^ (n - 1) →
      ∃ v : Int, (0 ≤ v ∧ v < 2 ^ n ∧ signExtend v n = y) ∧
        ∀ v' : Int, 0 ≤ v' → v' < 2 ^ n → signExtend v' n = y → v' = v) ∧
    (∀ v : Int, signExtend (signExtend v n) n = signExtend v n ∧ signExtend v n % 2 ^ n = v % 2 ^ n) ∧
    (∀ (F : BitField) (w : Word), F.insert (F.extractSigned w) w = w)

/-! ### Encoding and decoding -/

/-- R100: `Encode(i) = code << 26 | cond << 22 | target << 18 | src1 << 14 | src2 << 10 | (offset mod 1024)`, whatever
the record's reserved bit and offset are; bit 31 is 0 (decisions D1, D2 for the layout and the codes). -/
def Obligations.EncodePlacesFields : Prop :=
  ∀ i : Instr,
    (encode i).toNat = Config.js32.opcodeCode i.op * 2 ^ 26 + i.fields.cond.toNat * 2 ^ 22 +
      i.fields.target.val * 2 ^ 18 + i.fields.src1.val * 2 ^ 14 + i.fields.src2.val * 2 ^ 10 +
      (i.fields.offset % 1024).toNat ∧
    (encode i).getLsbD 31 = false ∧
    ∀ (op : OpCode) (f : Fields) (r : BitVec 1), encode (op.instr { f with reserved := r }) = encode (op.instr f)

/-- R102 (decisions D1, D2 for the layout and the codes): the decoder is total; it reads each field at its place, and a
code that is not 0, 1, 2, 3, 5, 6 or 7 is undeclared, with that code. -/
def Obligations.DecodeReadsFields : Prop :=
  ∀ w : Word,
    (∀ c, decode w = .undeclared c ↔
      c = w.toNat / 2 ^ 26 % 32 ∧ c ≠ 0 ∧ c ≠ 1 ∧ c ≠ 2 ∧ c ≠ 3 ∧ c ≠ 5 ∧ c ≠ 6 ∧ c ≠ 7) ∧
    (∀ i, decode w = .valid i →
      w.toNat / 2 ^ 26 % 32 = (match i.op with
        | .halt => 0 | .load => 1 | .store => 2 | .add => 3 | .sub => 5 | .mul => 6 | .div => 7) ∧
      i.fields.cond.toNat = w.toNat / 2 ^ 22 % 16 ∧
      i.fields.target.val = w.toNat / 2 ^ 18 % 16 ∧
      i.fields.src1.val = w.toNat / 2 ^ 14 % 16 ∧
      i.fields.src2.val = w.toNat / 2 ^ 10 % 16 ∧
      i.fields.offset = (BitVec.ofNat 10 w.toNat).toInt ∧
      i.fields.reserved = 0)

/-- R103 (that the reserved bit is bit 31 is decision D1, assumption log 5): bit 31 is dropped silently. It does not
change the decoding, it is re-encoded as 0, and the word executes identically with bit 31 set and cleared. -/
def Obligations.ReservedBitIsIgnored : Prop :=
  ∀ w : Word,
    decode (w ||| 0x80000000#32) = decode (w &&& 0x7FFFFFFF#32) ∧
    ∀ i, decode w = .valid i →
      encode i = w &&& 0x7FFFFFFF#32 ∧ decode (w &&& 0x7FFFFFFF#32) = .valid i ∧
      ∀ s : State, s.halted = false → s.fault = none →
        s.mem.read? s.pc.toNat = some (w &&& 0x7FFFFFFF#32) ∨
          s.mem.read? s.pc.toNat = some (w ||| 0x80000000#32) →
        step s = exec i s

/-- R101: an offset outside -512..511 is encoded by its low 10 bits and decodes to their signed reading. -/
def Obligations.OffsetIsMasked : Prop :=
  ∀ (op : OpCode) (f : Fields) (k : Int),
    encode (op.instr { f with offset := f.offset + 1024 * k }) = encode (op.instr f) ∧
    decode (encode (op.instr f)) = .valid (op.instr { f with offset := signExtend f.offset 10, reserved := 0 }) ∧
    (-512 ≤ f.offset → f.offset ≤ 511 → signExtend f.offset 10 = f.offset)

/-- R105 (marked as derived by the spec): encode and decode are exact inverses on well-formed instructions, every
operand at every value, and decoding gives well-formed instructions only. -/
def Obligations.DecodeOfEncodeIsIdentity : Prop :=
  (∀ i : Instr, i.wellFormed = true → decode (encode i) = .valid i) ∧
  (∀ (w : Word) (i : Instr), decode w = .valid i → i.wellFormed = true)

/-- The words of 95_test_vectors.md tables E and K, one per opcode and two undeclared ones (decisions D1 to
D3). -/
def Obligations.SpecWordsDecode : Prop :=
  decode 0x03C00000#32 = .valid (.halt ⟨15, 0, 0, 0, 0, 0⟩) ∧
  decode 0x049E27FF#32 = .valid (.load ⟨2, 7, 8, 9, -1, 0⟩) ∧
  decode 0x0A43C100#32 = .valid (.store ⟨9, 0, 15, 0, 256, 0⟩) ∧
  decode 0x0FC48C05#32 = .valid (.add ⟨15, 1, 2, 3, 5, 0⟩) ∧
  decode 0x14C84FF4#32 = .valid (.sub ⟨3, 2, 1, 3, -12, 0⟩) ∧
  decode 0x1B915B9C#32 = .valid (.mul ⟨14, 4, 5, 6, -100, 0⟩) ∧
  decode 0x1E3B7200#32 = .valid (.div ⟨8, 14, 13, 12, -512, 0⟩) ∧
  decode 0x90000000#32 = .undeclared 4 ∧
  decode 0x20000000#32 = .undeclared 8

/-! ### Text and assembler -/

/-- R93, R255 (decision D21 for the union of the two spellings): the canonical name of every CondFlag is read back as
it, and different values have different names. -/
def Obligations.PredicateNamesReadBack : Prop :=
  (∀ c : CondFlag, readPred (CondFlag.text c) = some c) ∧
  (∀ c d : CondFlag, CondFlag.text c = CondFlag.text d → c = d)

/-- R271, R111 (derived in the spec; R110's separator is decision D20): the canonical text of an instruction with
reserved bit 0 is a FULL line that Phase 2 turns into the instruction's own word, for every offset. What counts as white
space and as a number is the model's choice, assumption log 9. -/
def Obligations.CanonicalTextReassembles : Prop :=
  ∀ i : Instr, i.fields.reserved = 0 → phase2Line i.text = .ok (some (encode i))

/-- R257: `JUMP[/pred] label` becomes an ADD to slot 15 relative to slot 15, with the label's address less the JUMP
line's own address as displacement. How a line of text is taken apart is the model's choice where the spec is silent,
assumption log 9. -/
def Obligations.JumpIsRelativeAdd : Prop :=
  ∀ (labels : Labels) (address b : Nat) (t name : Text) (own : Option Text) (c : CondFlag),
    labels.address name = some b →
    (∃ u, lowerLine labels address t ⟨own, .jump (some (CondFlag.text c)) name⟩ = .ok u ∧
      phase2Line u = .ok (some (encode (.add ⟨c, 15, 0, 15, (b : Int) - address, 0⟩)))) ∧
    (∃ u, lowerLine labels address t ⟨own, .jump none name⟩ = .ok u ∧
      phase2Line u = .ok (some (encode (.add ⟨15, 15, 0, 15, (b : Int) - address, 0⟩))))

/-- R256: `opcode[/pred] target,label` becomes that opcode with src1 = r0, src2 = r15 and the label's address less the
line's own address as displacement; the opcode and the predicate are kept (assumption log 9 as above). -/
def Obligations.MemoryOperandIsPcRelative : Prop :=
  ∀ (labels : Labels) (address b : Nat) (t name : Text) (own : Option Text) (op : OpCode) (r : Reg) (c : CondFlag),
    labels.address name = some b →
    (∃ u, lowerLine labels address t ⟨own, .memop op.text (some (CondFlag.text c)) (regText r) name⟩ = .ok u ∧
      phase2Line u = .ok (some (encode (op.instr ⟨c, r, 0, 15, (b : Int) - address, 0⟩)))) ∧
    (∃ u, lowerLine labels address t ⟨own, .memop op.text none (regText r) name⟩ = .ok u ∧
      phase2Line u = .ok (some (encode (op.instr ⟨15, r, 0, 15, (b : Int) - address, 0⟩))))

/-- R252, R261: Pass A numbers the lines that are not COMMENT from 0, and a label has the address of its last
definition: the number of earlier lines that some form matches and whose body is not COMMENT. The model's choices
(assumption log 9), of lines that no form matches: such a line consumes no address, as a COMMENT line does, and a label
defined on it is not recorded, so that the premise on the later lines leaves such lines out. -/
def Obligations.LastLabelDefinitionWins : Prop :=
  ∀ (before after : List Text) (t name : Text) (body : Body),
    readLine t = some ⟨some name, body⟩ →
    (∀ u ∈ after, ∀ l, readLine u = some l → l.label ≠ some name) →
    (passA 0 [] (before ++ t :: after)).address name =
      some ((before.filterMap readLine).filter fun l => decide (l.body ≠ .comment)).length

/-- R270, R345 (decision D19 for the reduction and the refusal): the object file of a word stream is read back as the
words' unsigned values; the loader "places word i at address i", each integer of any size and sign reduced modulo 2^32;
other words keep what they held, and nothing but memory is written; an image longer than memory is refused. -/
def Obligations.ObjectFileLoads : Prop :=
  (∀ ws : List Word,
    readObject (objectText ws) = some (ws.map fun w => (w.toNat : Int)) ∧
    (ws.map fun w => (w.toNat : Int)).map (BitVec.ofInt 32) = ws) ∧
  ∀ (image : List Int) (s : State), s.mem.wf = true →
    (s.mem.words < image.length → command (.load image) s = .refused (.imageTooLong image.length)) ∧
    (image.length ≤ s.mem.words → ∃ m, command (.load image) s = .next (s.setMem m) ∧ m.words = s.mem.words ∧
      (∀ i (h : i < image.length), m.read? i = some (BitVec.ofInt 32 image[i])) ∧
      (∀ a, image.length ≤ a → m.read? a = s.mem.read? a))

/-! ### The ALU -/

/-- R142, with R141 for the wrap of every result modulo 2^32 (decision D4, assumption log 7) and R140 for HALT's constant
0: LOAD and STORE share ADD's operation, and their sum is the memory address; SUB is operand1 minus operand2; MUL is the
low 32 bits of the 64-bit signed product. -/
def Obligations.AluResultsAreLowWords : Prop :=
  (∀ (f : Fields) (s : State),
    s.effectiveAddr .load f = (alu .add (s.operand1 f) (s.operand2 f)).1 ∧
    s.effectiveAddr .store f = (alu .add (s.operand1 f) (s.operand2 f)).1) ∧
  ∀ a b : Word,
    (alu .add a b).1 = a + b ∧
    alu .load a b = alu .add a b ∧
    alu .store a b = alu .add a b ∧
    (alu .sub a b).1 = a - b ∧
    (alu .mul a b).1 = (a.signExtend 64 * b.signExtend 64).truncate 32 ∧
    (alu .halt a b).1 = 0

/-- R143: the greatest integer not above the rational quotient of the signed readings; the remainder that goes with it
has the sign of the divisor. -/
def Obligations.DivFloorsTheQuotient : Prop :=
  ∀ a b : Word, b ≠ 0 →
    let q : Int := ⌊(a.toInt : ℚ) / (b.toInt : ℚ)⌋
    (alu .div a b).1 = BitVec.ofInt 32 q ∧
    (0 < b.toInt → 0 ≤ a.toInt - q * b.toInt ∧ a.toInt - q * b.toInt < b.toInt) ∧
    (b.toInt < 0 → b.toInt < a.toInt - q * b.toInt ∧ a.toInt - q * b.toInt ≤ 0)

/-- R145, R146 (decision D4: the flag is taken from the wrapped 32-bit result): the flag output for every opcode and
every pair of operands. -/
def Obligations.AluFlagIsSignOfResult : Prop :=
  ∀ (op : OpCode) (a b : Word),
    (alu op a b).2 = if op = .div ∧ b = 0 then 8 else SignFlag (alu op a b).1

/-- R146: the only arithmetic fault is DIV with operand2 = 0; the ALU answers (0, V), V comes in no other way, and the
DIV completes like any other: 0 to its target, V to the flag, the pc advanced, no fault, no halt. -/
def Obligations.DivisionByZeroIsFlagV : Prop :=
  (∀ (op : OpCode) (a b : Word), (alu op a b).2 = CondFlag.V ↔ op = .div ∧ b = 0) ∧
  (∀ a : Word, alu .div a 0 = (0, CondFlag.V)) ∧
  (∀ (f : Fields) (s : State), s.satisfies f.cond = true → s.operand2 f = 0 →
    ∃ t, exec (.div f) s = .next t ∧ t.flag = CondFlag.V ∧ t.readReg f.target = 0 ∧ ArithFrame f s t)

/-! ### The register file -/

/-- R21: slot 0 reads 0 and a write of it changes no state; an instruction that names it as target still advances the
pc, sets the flag, and (a LOAD) reads memory. -/
def Obligations.SlotZeroDiscardsWrites : Prop :=
  (∀ s : State, s.readReg 0 = 0) ∧
  (∀ (s : State) (v : Word), s.writeReg 0 v = s) ∧
  (∀ (op : OpCode) (f : Fields) (s : State), f.target = 0 → s.satisfies f.cond = true →
    op ∈ [OpCode.add, .sub, .mul, .div] →
    exec (op.instr f) s = .next { s with pc := s.pc + 1, flag := (s.aluOut op f).2 }) ∧
  (∀ (f : Fields) (s : State), f.target = 0 → s.satisfies f.cond = true →
    s.mem.valid (s.effectiveAddr .load f).toNat = true →
    s.dataAccess (.load f) = [.read (s.effectiveAddr .load f).toNat] ∧
    exec (.load f) s = .next { s with pc := s.pc + 1 })

/-- R23: `pc` and `x[15]` are one cell: reading slot 15 reads it, writing slot 15 writes it and nothing else. -/
def Obligations.SlotFifteenIsThePc : Prop :=
  ∀ (s : State) (v : Word), s.readReg 15 = s.pc ∧ s.writeReg 15 v = { s with pc := v }

/-- R22: slots 1 to 14 are ordinary cells: a read returns the word last written, a write replaces the whole word and no
other slot. -/
def Obligations.OrdinarySlotsHoldWords : Prop :=
  ∀ (s : State) (r : Reg) (v : Word), r ≠ 0 → r ≠ 15 →
    (s.writeReg r v).readReg r = v ∧
    (∀ q, q ≠ r → (s.writeReg r v).readReg q = s.readReg q) ∧
    (∀ v', (s.writeReg r v).writeReg r v' = s.writeReg r v') ∧
    s.writeReg r (s.readReg r) = s

/-! ### Memory -/

/-- R52, R53, R59 (R59 is decision D6): at a valid address a write succeeds, the word written is read back, every other
word and the size stay; at an invalid one there is neither a read nor a write. -/
def Obligations.MemoryReadsLastWrite : Prop :=
  ∀ (m : Memory) (a : Nat) (v : Word), m.wf = true →
    (a < m.words → ∃ m', m.write? a v = some m' ∧ m'.words = m.words ∧ m'.read? a = some v ∧
      ∀ b, b ≠ a → m'.read? b = m.read? b) ∧
    (m.words ≤ a → m.write? a v = none ∧ m.read? a = none)

/-- The model's canonical form (assumption log 1): two memories in canonical form that read alike everywhere are the
same data. -/
def Obligations.CanonicalMemoryIsUnique : Prop :=
  ∀ m m' : Memory, m.wf = true → m'.wf = true → m.words = m'.words →
    (∀ a, m.read? a = m'.read? a) → m = m'

/-- R50, R57 (MEM_WORDS and MEM_INIT are OPEN, decisions D5 and D18; that words beyond MEM_INIT hold
`Memory.unlisted` is the model's choice, assumption log 3): the memory of a powered-on machine, for every size and
every initial contents. -/
def Obligations.PowerOnMemoryIsMemInit : Prop :=
  ∀ (c : Config) (a : Nat),
    (State.powerOn c).mem.words = c.memWords ∧
    (a < c.memWords → (State.powerOn c).mem.read? a = some (c.memInit.getD a Memory.unlisted)) ∧
    (c.memWords ≤ a → (State.powerOn c).mem.read? a = none)

/-! ### Instructions -/

/-- R153: satisfied exactly when some flag that is set in `flag` is set in cond; ALWAYS whenever the flag is not 0, which
every legal flag is; NEVER never; under the flag ALWAYS everything but NEVER. The test stands before all seven
opcodes. -/
def Obligations.PredicateIsSharedFlag : Prop :=
  ∀ s : State,
    (∀ cond : CondFlag, s.satisfies cond = true ↔ ∃ k, k < 4 ∧ s.flag.getLsbD k = true ∧ cond.getLsbD k = true) ∧
    (s.flag ≠ 0 → s.satisfies CondFlag.ALWAYS = true) ∧
    (FlagLegal s.flag → s.flag ≠ 0) ∧
    s.satisfies CondFlag.NEVER = false ∧
    (s.flag = CondFlag.ALWAYS → ∀ cond, cond ≠ CondFlag.NEVER → s.satisfies cond = true) ∧
    (∀ i : Instr, s.satisfies i.fields.cond = false → exec i s = .next { s with pc := s.pc + 1 })

/-- R160: "If unsatisfied: pc<-pc+1 only; no other state change", for all seven opcodes, whatever the operands: no
memory access beyond the fetch, no flag, no halt, no fault. -/
def Obligations.UnsatisfiedOnlyAdvancesPc : Prop :=
  ∀ (i : Instr) (s : State), s.satisfies i.fields.cond = false →
    exec i s = .next { s with pc := s.pc + 1 } ∧ s.dataAccess i = []

/-- R180: what a satisfied ADD, SUB, MUL or DIV does, in terms of the ALU. -/
def Obligations.ArithmeticWritesAluOutput : Prop :=
  ∀ (op : OpCode) (f : Fields) (s : State), op ∈ [OpCode.add, .sub, .mul, .div] → s.satisfies f.cond = true →
    ∃ t, exec (op.instr f) s = .next t ∧
      (f.target ≠ 0 →
        t.readReg f.target = (alu op (s.readReg f.src1) (u32 (f.offset + (s.readReg f.src2).toNat))).1) ∧
      t.flag = (alu op (s.readReg f.src1) (u32 (f.offset + (s.readReg f.src2).toNat))).2 ∧
      ArithFrame f s t ∧ s.dataAccess (op.instr f) = []

/-- R181: ADD (decision D4 for the wrap, D1 and D2 for the encoding). -/
def Obligations.AddWritesSum : Prop :=
  (∀ (f : Fields) (s : State), s.satisfies f.cond = true →
    ∃ t, exec (.add f) s = .next t ∧
      (f.target ≠ 0 → t.readReg f.target = SumOfOperands s f) ∧
      t.flag = SignFlag (SumOfOperands s f) ∧ ArithFrame f s t) ∧
  (∀ f : Fields, encode (.add f) = TableWord 0x0C000000 f) ∧
  (∀ w : Word, w &&& 0x7C000000#32 = 0x0C000000#32 ↔ ∃ f, decode w = .valid (.add f))

/-- R182: SUB, operand1 minus operand2 (decision D4 for the wrap, D1 and D2 for the encoding). -/
def Obligations.SubWritesDifference : Prop :=
  (∀ (f : Fields) (s : State), s.satisfies f.cond = true →
    ∃ t, exec (.sub f) s = .next t ∧
      (f.target ≠ 0 →
        t.readReg f.target = s.readReg f.src1 - s.readReg f.src2 - BitVec.ofInt 32 f.offset) ∧
      t.flag = SignFlag (s.readReg f.src1 - s.readReg f.src2 - BitVec.ofInt 32 f.offset) ∧ ArithFrame f s t) ∧
  (∀ f : Fields, encode (.sub f) = TableWord 0x14000000 f) ∧
  (∀ w : Word, w &&& 0x7C000000#32 = 0x14000000#32 ↔ ∃ f, decode w = .valid (.sub f))

/-- R183: MUL, the low word of the product (decision D4 for the wrap, D1 and D2 for the encoding). -/
def Obligations.MulWritesLowProduct : Prop :=
  (∀ (f : Fields) (s : State), s.satisfies f.cond = true →
    ∃ t, exec (.mul f) s = .next t ∧
      (f.target ≠ 0 →
        t.readReg f.target = s.readReg f.src1 * (s.readReg f.src2 + BitVec.ofInt 32 f.offset)) ∧
      t.flag = SignFlag (s.readReg f.src1 * (s.readReg f.src2 + BitVec.ofInt 32 f.offset)) ∧ ArithFrame f s t) ∧
  (∀ f : Fields, encode (.mul f) = TableWord 0x18000000 f) ∧
  (∀ w : Word, w &&& 0x7C000000#32 = 0x18000000#32 ↔ ∃ f, decode w = .valid (.mul f))

/-- R184: DIV, floor division of the signed readings; a zero divisor gives 0 and flag V (decision D4 for the wrap, D1 and
D2 for the encoding). -/
def Obligations.DivWritesFloorQuotient : Prop :=
  (∀ (f : Fields) (s : State), s.satisfies f.cond = true →
    let B : Word := s.readReg f.src2 + BitVec.ofInt 32 f.offset
    let q : Word := BitVec.ofInt 32 ⌊((s.readReg f.src1).toInt : ℚ) / (B.toInt : ℚ)⌋
    ∃ t, exec (.div f) s = .next t ∧
      (f.target ≠ 0 → t.readReg f.target = if B = 0 then 0 else q) ∧
      t.flag = (if B = 0 then 8 else SignFlag q) ∧ ArithFrame f s t) ∧
  (∀ f : Fields, encode (.div f) = TableWord 0x1C000000 f) ∧
  (∀ w : Word, w &&& 0x7C000000#32 = 0x1C000000#32 ↔ ∃ f, decode w = .valid (.div f))

/-- R201 for a valid address (decision D6 makes an address valid or a fault): the word at x[src1] + x[src2] + offset is
copied whole; the flag, memory, the status and every other slot stay. -/
def Obligations.LoadCopiesWord : Prop :=
  (∀ (f : Fields) (s : State) (v : Word), s.satisfies f.cond = true →
    s.mem.read? (SumOfOperands s f).toNat = some v →
    ∃ t, exec (.load f) s = .next t ∧
      (f.target ≠ 0 → t.readReg f.target = v) ∧ t.flag = s.flag ∧ ArithFrame f s t) ∧
  (∀ f : Fields, encode (.load f) = TableWord 0x04000000 f) ∧
  (∀ w : Word, w &&& 0x7C000000#32 = 0x04000000#32 ↔ ∃ f, decode w = .valid (.load f))

/-- R201, R309 (decision D6): where a satisfied LOAD faults, and that nothing but the fault status changes, whatever its
target. -/
def Obligations.LoadOutOfRangeFaults : Prop :=
  ∀ (f : Fields) (s : State), s.satisfies f.cond = true → s.mem.words ≤ (SumOfOperands s f).toNat →
    exec (.load f) s = .next { s with fault := some (.loadOutOfRange s.pc (SumOfOperands s f)) }

/-- R202 for a valid address (decision D6): x[target], read after the pc advance, replaces the word at the effective
address; every other word of memory, every slot but the pc, the flag and the status stay. -/
def Obligations.StoreWritesWord : Prop :=
  (∀ (f : Fields) (s : State), s.satisfies f.cond = true → s.mem.wf = true →
    s.mem.valid (s.effectiveAddr .store f).toNat = true →
    s.effectiveAddr .store f = SumOfOperands s f ∧
    ∃ t, exec (.store f) s = .next t ∧
      t.mem.read? (s.effectiveAddr .store f).toNat =
        some (if f.target = 15 then s.pc + 1 else s.readReg f.target) ∧
      (∀ a, a ≠ (s.effectiveAddr .store f).toNat → t.mem.read? a = s.mem.read? a) ∧
      t.pc = s.pc + 1 ∧ (∀ q, q ≠ 15 → t.readReg q = s.readReg q) ∧ t.flag = s.flag ∧ SameStatus s t) ∧
  (∀ f : Fields, encode (.store f) = TableWord 0x08000000 f) ∧
  (∀ w : Word, w &&& 0x7C000000#32 = 0x08000000#32 ↔ ∃ f, decode w = .valid (.store f))

/-- R202, R310 (decision D6): where a satisfied STORE faults; memory is not written and nothing but the fault status
changes. -/
def Obligations.StoreOutOfRangeFaults : Prop :=
  ∀ (f : Fields) (s : State), s.satisfies f.cond = true → s.mem.words ≤ (SumOfOperands s f).toNat →
    exec (.store f) s = .next { s with fault := some (.storeOutOfRange s.pc (SumOfOperands s f)) }

/-- R220: HALT advances the pc and sets `halted`, and nothing else, whatever its operand fields; it is predicated like
every instruction. -/
def Obligations.HaltStopsTheEngine : Prop :=
  (∀ (f : Fields) (s : State), s.satisfies f.cond = true →
    exec (.halt f) s = .next { s with pc := s.pc + 1, halted := true }) ∧
  (∀ (f : Fields) (s : State), s.satisfies f.cond = false →
    exec (.halt f) s = .next { s with pc := s.pc + 1 }) ∧
  (∀ (s : State), s.halted = true → step s = .next s) ∧
  (∀ f : Fields, encode (.halt f) = TableWord 0 f) ∧
  (∀ w : Word, w &&& 0x7C000000#32 = 0 ↔ ∃ f, decode w = .valid (.halt f))

/-! ### Control transfer -/

/-- R231: slot 15 as src1 or src2 yields the address of the instruction being executed, so `ADD rT,r0,r15[k]` gives
a + k. -/
def Obligations.SlotFifteenReadsOwnAddress : Prop :=
  ∀ (f : Fields) (s : State),
    (f.src1 = 15 → s.operand1 f = s.pc) ∧
    (f.src2 = 15 → s.operand2 f = s.pc + BitVec.ofInt 32 f.offset) ∧
    (∀ (cond : CondFlag) (target : Reg) (k : Int), target ≠ 0 → s.satisfies cond = true →
      ∃ t, exec (.add ⟨cond, target, 0, 15, k, 0⟩) s = .next t ∧
        t.readReg target = s.pc + BitVec.ofInt 32 k)

/-- R232: a satisfied ADD, SUB, MUL, DIV or LOAD with target 15 leaves its result in the pc, over the advance; the
canonical jump `ADD r15,r0,r15[d]` goes to a + d and sets the flag from it; no jump faults by itself. -/
def Obligations.WritingSlotFifteenJumps : Prop :=
  ∀ (f : Fields) (s : State), f.target = 15 → s.satisfies f.cond = true →
    (∀ op ∈ [OpCode.add, .sub, .mul, .div], ∃ t, exec (op.instr f) s = .next t ∧
      t.pc = (alu op (s.operand1 f) (s.operand2 f)).1 ∧ t.fault = s.fault) ∧
    (∀ v, s.mem.read? (s.effectiveAddr .load f).toNat = some v →
      ∃ t, exec (.load f) s = .next t ∧ t.pc = v ∧ t.fault = s.fault) ∧
    (∀ d : Int, ∃ t, exec (.add ⟨f.cond, 15, 0, 15, d, 0⟩) s = .next t ∧
      t.pc = s.pc + BitVec.ofInt 32 d ∧ t.flag = SignFlag (s.pc + BitVec.ofInt 32 d))

/-- R235: `STORE r15,...` writes a + 1, while slot 15 in its address contributes a. -/
def Obligations.StoringSlotFifteenStoresNext : Prop :=
  ∀ (f : Fields) (s : State), f.target = 15 → s.satisfies f.cond = true → s.mem.wf = true →
    s.mem.valid (s.effectiveAddr .store f).toNat = true →
    (∃ t, exec (.store f) s = .next t ∧ t.mem.read? (s.effectiveAddr .store f).toNat = some (s.pc + 1)) ∧
    (f.src1 = 15 → s.effectiveAddr .store f = s.pc + (s.readReg f.src2 + BitVec.ofInt 32 f.offset)) ∧
    (f.src2 = 15 → s.effectiveAddr .store f = s.readReg f.src1 + (s.pc + BitVec.ofInt 32 f.offset))

/-- R200, R203 (the table is derived in the spec): the one addressing mode, and its forms. -/
def Obligations.EffectiveAddressForms : Prop :=
  ∀ (f : Fields) (s : State) (op : OpCode), op = .load ∨ op = .store →
    s.effectiveAddr op f = SumOfOperands s f ∧
    (f.src1 = 0 → f.src2 = 0 → s.effectiveAddr op f = BitVec.ofInt 32 f.offset) ∧
    (f.src1 = 0 → s.effectiveAddr op f = s.readReg f.src2 + BitVec.ofInt 32 f.offset) ∧
    (f.offset = 0 → s.effectiveAddr op f = s.readReg f.src1 + s.readReg f.src2) ∧
    (f.src1 = 0 → f.src2 = 15 → s.effectiveAddr op f = s.pc + BitVec.ofInt 32 f.offset)

/-! ### The step -/

/-- R150, R152: when the word at the pc decodes to an instruction, the step of a running machine is that instruction's
execution in that very state, and the step event carries the address, the word and the instruction. -/
def Obligations.StepRunsDecodedInstruction : Prop :=
  ∀ (s : State) (w : Word) (i : Instr), s.halted = false → s.fault = none →
    s.mem.read? s.pc.toNat = some w → decode w = .valid i →
    step s = exec i s ∧ s.stepEvent = some ⟨s.pc, w, i⟩

/-- R151 (decision D11): a step of a halted or faulted machine changes nothing, accesses nothing, publishes nothing. -/
def Obligations.StoppedStepChangesNothing : Prop :=
  ∀ s : State, s.halted = true ∨ s.fault ≠ none →
    step s = .next s ∧ s.accesses = [] ∧ s.stepEvent = none

/-- R305, R307 to R310, R312 (decisions D6, D7, D8): which fault a running machine's step records, with which address,
word and effective address, and exactly when. -/
def Obligations.FaultsHaveTheirCauses : Prop :=
  ∀ s t : State, s.halted = false → s.fault = none → step s = .next t →
    (∀ a, t.fault = some (.fetchOutOfRange a) ↔ a = s.pc ∧ s.mem.words ≤ s.pc.toNat) ∧
    (∀ a w, t.fault = some (.illegalOpcode a w) ↔
      a = s.pc ∧ s.mem.read? s.pc.toNat = some w ∧ ∃ c, decode w = .undeclared c) ∧
    (∀ a ea, t.fault = some (.loadOutOfRange a ea) ↔
      a = s.pc ∧ s.mem.words ≤ ea.toNat ∧
      ∃ w f, s.mem.read? s.pc.toNat = some w ∧ decode w = .valid (.load f) ∧ s.satisfies f.cond = true ∧
        ea = SumOfOperands s f) ∧
    (∀ a ea, t.fault = some (.storeOutOfRange a ea) ↔
      a = s.pc ∧ s.mem.words ≤ ea.toNat ∧
      ∃ w f, s.mem.read? s.pc.toNat = some w ∧ decode w = .valid (.store f) ∧ s.satisfies f.cond = true ∧
        ea = SumOfOperands s f)

/-- R306, R313 (decision D8): a step that records a fault changes no register, flag, memory word, not `halted` and not
the pc; and a fault once recorded stays. -/
def Obligations.FaultsArePrecise : Prop :=
  ∀ s t : State, step s = .next t → t.fault ≠ none →
    t = { s with fault := t.fault } ∧ (s.fault ≠ none → t = s) ∧ step t = .next t

/-- R28: a satisfied ADD, SUB, MUL or DIV sets the flag to the ALU's; every other instruction, and every unsatisfied one,
leaves it; and whatever a step does, it changes the flag only if it runs one of those four, satisfied. -/
def Obligations.FlagWrittenOnlyByArithmetic : Prop :=
  (∀ (i : Instr) (s : State), writesFlag i = true → s.satisfies i.fields.cond = true →
    ∃ t, exec i s = .next t ∧ t.flag = (alu i.op (s.operand1 i.fields) (s.operand2 i.fields)).2) ∧
  (∀ (i : Instr) (s t : State), writesFlag i = false ∨ s.satisfies i.fields.cond = false → exec i s = .next t →
    t.flag = s.flag) ∧
  (∀ s t : State, step s = .next t → t.flag ≠ s.flag →
    ∃ w i, s.mem.read? s.pc.toNat = some w ∧ decode w = .valid i ∧ writesFlag i = true ∧
      s.satisfies i.fields.cond = true ∧ exec i s = .next t)

/-- R31: `halted` is set by a satisfied HALT and by nothing else a step or the loader does, cleared by `run` and by
`reset`, and while it is set a step changes nothing. -/
def Obligations.HaltedSetOnlyByHalt : Prop :=
  (∀ (f : Fields) (s : State), s.satisfies f.cond = true → ∃ t, exec (.halt f) s = .next t ∧ t.halted = true) ∧
  (∀ (image : List Int) (s t : State), command (.load image) s = .next t → t.halted = s.halted) ∧
  (∀ s t : State, step s = .next t → t.halted ≠ s.halted →
    t.halted = true ∧ ∃ w f, s.mem.read? s.pc.toNat = some w ∧ decode w = .valid (.halt f) ∧
      s.satisfies f.cond = true) ∧
  (∀ (s : State) (a : Word), (s.beginRun a).halted = false ∧ s.resetCommand.halted = false) ∧
  (∀ s : State, s.halted = true → step s = .next s)

/-- R36, R53, R157: whatever a step does, it changes memory only if it runs a satisfied STORE at a valid address, and
then at the effective address alone; the size never changes. -/
def Obligations.MemoryWrittenOnlyByStore : Prop :=
  ∀ s t : State, s.mem.wf = true → step s = .next t →
    t.mem.words = s.mem.words ∧
    ∀ a, t.mem.read? a ≠ s.mem.read? a →
      ∃ w f, s.mem.read? s.pc.toNat = some w ∧ decode w = .valid (.store f) ∧ s.satisfies f.cond = true ∧
        a = (s.effectiveAddr .store f).toNat ∧ a < s.mem.words ∧
        t.mem.read? a = some (s.advancePc.readReg f.target)

/-- R25 (derived in the spec): an instruction depends on no ordinary register it does not name as a source. Two states
that differ only in such a register step to states that differ at most in that register. -/
def Obligations.OnlyNamedRegistersMatter : Prop :=
  ∀ (i : Instr) (s : State) (q : Reg) (v : Word), q ≠ 15 → q ≠ i.fields.src1 → q ≠ i.fields.src2 →
    (i.op = .store → q ≠ i.fields.target) →
    ∃ t u v', exec i s = .next t ∧ exec i (s.writeReg q v) = .next u ∧ u = t.writeReg q v'

/-- R161 (decision D8: a fault is a state): every step of every state answers a next state. -/
def Obligations.StepIsTotal : Prop := ∀ s : State, ∃ t, step s = .next t

/-- R230, with R306 for the steps that fault (decision D8): an instruction that is fetched and decoded, and does not
fault, leaves the pc at a + 1 unless its effect writes slot 15. -/
def Obligations.FlowIsSequential : Prop :=
  ∀ (s t : State) (w : Word) (i : Instr), s.halted = false → s.fault = none →
    s.mem.read? s.pc.toNat = some w → decode w = .valid i → step s = .next t → t.fault = none →
    (i.fields.target = 15 → s.satisfies i.fields.cond = true → i.op = .halt ∨ i.op = .store) →
    t.pc = s.pc + 1

/-- R63 (derived in the spec): a STORE over the next instruction is seen by the very next fetch. -/
def Obligations.StoreIsSeenByNextFetch : Prop :=
  ∀ (s : State) (w : Word) (f : Fields) (j : Instr), s.halted = false → s.fault = none → s.mem.wf = true →
    s.mem.read? s.pc.toNat = some w → decode w = .valid (.store f) → s.satisfies f.cond = true →
    s.effectiveAddr .store f = s.pc + 1 → s.mem.valid (s.pc + 1).toNat = true →
    decode (s.advancePc.readReg f.target) = .valid j →
    ∃ t, step s = .next t ∧ step t = exec j t

/-- R8, R152 (decision D22 for the faulting steps): exactly the steps that fetch and decode publish an event, with the
state's own pc, the word there and its decoding. -/
def Obligations.StepEventIsTheFetch : Prop :=
  ∀ (s : State) (e : StepEvent), s.stepEvent = some e ↔
    s.halted = false ∧ s.fault = none ∧ e.address = s.pc ∧ s.mem.read? s.pc.toNat = some e.word ∧
      decode e.word = .valid e.instr

/-- R6, R56 (decision D14; derived): a running machine whose word at the pc decodes makes one fetch, at the pc, and then
the instruction's own access: one read of its address for a satisfied LOAD, one write of the stored slot there for a
satisfied STORE, both at a valid address only (decision D6), and none otherwise. A word that does not decode has been
fetched; an invalid pc has not (assumption log 14). All accesses are at valid addresses; the word a STORE writes is there
after the step and no other word has changed. -/
def Obligations.AccessesOfOneStep : Prop :=
  (∀ (s : State) (w : Word), s.halted = false → s.fault = none → s.mem.read? s.pc.toNat = some w →
    (∀ i, decode w = .valid i → s.accesses = .fetch s.pc.toNat :: s.dataAccess i) ∧
    (∀ c, decode w = .undeclared c → s.accesses = [.fetch s.pc.toNat])) ∧
  (∀ s : State, s.mem.words ≤ s.pc.toNat → s.accesses = []) ∧
  (∀ (s : State) (f : Fields),
    s.dataAccess (.load f) =
      (if s.satisfies f.cond = true ∧ (SumOfOperands s f).toNat < s.mem.words then
        [.read (SumOfOperands s f).toNat] else []) ∧
    s.dataAccess (.store f) =
      (if s.satisfies f.cond = true ∧ (SumOfOperands s f).toNat < s.mem.words then
        [.write (SumOfOperands s f).toNat (if f.target = 15 then s.pc + 1 else s.readReg f.target)] else [])) ∧
  (∀ (s : State) (i : Instr), i.op ≠ .load → i.op ≠ .store → s.dataAccess i = []) ∧
  ∀ s t : State, s.mem.wf = true → step s = .next t →
    s.accesses.length ≤ 2 ∧
    (∀ x ∈ s.accesses.tail, ∀ a, x ≠ .fetch a) ∧
    (∀ x ∈ s.accesses, ∀ a v, x = .fetch a ∨ x = .read a ∨ x = .write a v → a < s.mem.words) ∧
    (∀ a v, Access.write a v ∈ s.accesses → t.mem.read? a = some v) ∧
    (∀ a, (∀ v, Access.write a v ∉ s.accesses) → t.mem.read? a = s.mem.read? a)

/-- Every step keeps the invariant: memory in canonical form, a legal flag (R30), a precise fault (R306). -/
def Obligations.StepKeepsInvariant : Prop := ∀ s t : State, s.Inv → step s = .next t → t.Inv

/-- The state after reset meets the invariant. It rests on the model's choices of assumption log 2 and 3. -/
def Obligations.ResetMeetsInvariant : Prop := State.reset.Inv

/-! ### The host's commands -/

/-- Every command of R7 keeps the size of memory (R50), a legal flag (R30, derived in the spec) and the canonical form of
memory, a whole run of any length included. The canonical form is of no rule: it is the model's own choice, assumption
log 1. -/
def Obligations.CommandsKeepMemoryAndFlag : Prop :=
  ∀ (c : Command) (s t : State), s.mem.wf = true → FlagLegal s.flag → command c s = .next t →
    t.mem.wf = true ∧ FlagLegal t.flag ∧ t.mem.words = s.mem.words

/-- R162, R163, R164 (decisions D10, D11; the step cap is an argument, assumption log 11): `run` is its two writes and
then the loop; the loop takes one step and goes on with the rest of its cap while the machine is neither halted nor
faulted, and stays where it is once it is. So a run that has stopped stays as it is under any larger cap, and any run
can be cut in two. -/
def Obligations.RunEndsForGood : Prop :=
  (∀ (a : Word) (n : Nat) (s : State), command (.run a n) s = runLoop n (s.beginRun a)) ∧
  (∀ s : State, runLoop 0 s = .next s) ∧
  (∀ (n : Nat) (s : State), s.halted = false → s.fault = none →
    ∃ t, step s = .next t ∧ runLoop (n + 1) s = runLoop n t) ∧
  (∀ (n : Nat) (s : State), s.halted = true ∨ s.fault ≠ none → runLoop n s = .next s) ∧
  (∀ (n k : Nat) (s t : State), runLoop n s = .next t → t.halted = true ∨ t.fault ≠ none →
    runLoop (n + k) s = .next t) ∧
  (∀ (n k : Nat) (s : State), ∃ t, runLoop n s = .next t ∧ runLoop (n + k) s = runLoop k t)

/-- R7, R40, R340, R41, R162 (decisions D9, D10): what the commands `reset`, `run` and `step` do: what `reset` and the
start of `run` write, that they write nothing else, that `run` goes on from there, and that `step` is one step. -/
def Obligations.ResetAndRunWrite : Prop :=
  (∀ s : State, ∃ t, command .reset s = .next t ∧ t = s.resetCommand ∧
    (∀ r, t.readReg r = 0) ∧ t.flag = 15 ∧ t.halted = false ∧ t.fault = none ∧ t.mem = s.mem) ∧
  (∀ (s : State) (a : Word), s.beginRun a = { s with pc := a, halted := false }) ∧
  (∀ (s : State) (a : Word) (n : Nat), s.fault = none → command (.run a n) s = runLoop n (s.beginRun a)) ∧
  (∀ (s : State) (a : Word) (n : Nat), s.fault ≠ none → command (.run a n) s = .next (s.beginRun a)) ∧
  (∀ s : State, command .step s = step s)
end

