-- ==== Sys2Proof/Laws/Memory.lean ====
section
/-! SUPPORT. What every memory operation reads and keeps: a read after an update, and the canonical form. -/

namespace Sys2Proof.Machine

/-- Below the first address of canonical cells nothing is listed. -/
theorem Memory.lookup_of_lt {lo hi : Nat} {cells : List (Nat × Word)} (h : Memory.cellsWf lo hi cells = true)
    {a : Nat} (ha : a < lo) : Memory.lookup cells a = Memory.unlisted := by
  induction cells generalizing lo with
  | nil => rfl
  | cons c rest ih =>
    obtain ⟨b, v⟩ := c
    simp only [Memory.cellsWf, Bool.and_eq_true, decide_eq_true_eq] at h
    obtain ⟨⟨⟨hlo, -⟩, -⟩, hrest⟩ := h
    rw [Memory.lookup, if_neg (by omega)]
    exact ih hrest (by omega)

theorem Memory.cellsWf_mono {lo lo' hi : Nat} {cells : List (Nat × Word)} (h : Memory.cellsWf lo hi cells = true)
    (hle : lo' ≤ lo) : Memory.cellsWf lo' hi cells = true := by
  cases cells with
  | nil => rfl
  | cons c rest =>
    obtain ⟨b, v⟩ := c
    simp only [Memory.cellsWf, Bool.and_eq_true, decide_eq_true_eq] at h ⊢
    exact ⟨⟨⟨by omega, h.1.1.2⟩, h.1.2⟩, h.2⟩

/-- A word read after an update of canonical cells. -/
theorem Memory.lookup_update {lo hi : Nat} {cells : List (Nat × Word)} (h : Memory.cellsWf lo hi cells = true)
    (a b : Nat) (v : Word) :
    Memory.lookup (Memory.update cells a v) b = if b = a then v else Memory.lookup cells b := by
  induction cells generalizing lo with
  | nil =>
    by_cases hv : v = Memory.unlisted
    · simp [Memory.update, Memory.lookup, hv]
    · by_cases hb : b = a
      · simp [Memory.update, Memory.lookup, hv, hb]
      · simp [Memory.update, Memory.lookup, hv, hb, Ne.symm hb]
  | cons c rest ih =>
    obtain ⟨c, u⟩ := c
    simp only [Memory.cellsWf, Bool.and_eq_true, decide_eq_true_eq] at h
    obtain ⟨⟨⟨-, -⟩, -⟩, hrest⟩ := h
    by_cases hlt : a < c
    · have hnone : Memory.lookup ((c, u) :: rest) a = Memory.unlisted := by
        rw [Memory.lookup, if_neg (by omega)]
        exact Memory.lookup_of_lt hrest (by omega)
      by_cases hv : v = Memory.unlisted
      · rw [Memory.update, if_pos hlt, if_pos hv]
        by_cases hb : b = a
        · rw [if_pos hb, hb, hnone, hv]
        · rw [if_neg hb]
      · rw [Memory.update, if_pos hlt, if_neg hv]
        by_cases hb : b = a
        · simp [Memory.lookup, hb]
        · rw [Memory.lookup, if_neg (Ne.symm hb), if_neg hb]
    · by_cases hac : a = c
      · subst hac
        have hnone : Memory.lookup rest a = Memory.unlisted := Memory.lookup_of_lt hrest (by omega)
        by_cases hv : v = Memory.unlisted
        · rw [Memory.update, if_neg hlt, if_pos rfl, if_pos hv]
          by_cases hb : b = a
          · rw [if_pos hb, hb, hnone, hv]
          · rw [if_neg hb, Memory.lookup, if_neg (Ne.symm hb)]
        · rw [Memory.update, if_neg hlt, if_pos rfl, if_neg hv]
          by_cases hb : b = a
          · simp [Memory.lookup, hb]
          · rw [if_neg hb, Memory.lookup, if_neg (Ne.symm hb), Memory.lookup, if_neg (Ne.symm hb)]
      · rw [Memory.update, if_neg hlt, if_neg hac]
        by_cases hb : c = b
        · subst hb; simp [Memory.lookup, Ne.symm hac]
        · rw [Memory.lookup, if_neg hb, ih hrest, Memory.lookup, if_neg hb]

/-- An update inside the bounds keeps the canonical form. -/
theorem Memory.cellsWf_update {lo hi : Nat} {cells : List (Nat × Word)} (h : Memory.cellsWf lo hi cells = true)
    {a : Nat} (hlo : lo ≤ a) (hhi : a < hi) (v : Word) :
    Memory.cellsWf lo hi (Memory.update cells a v) = true := by
  induction cells generalizing lo with
  | nil => by_cases hv : v = Memory.unlisted <;> simp [Memory.update, Memory.cellsWf, hv, hlo, hhi]
  | cons c rest ih =>
    obtain ⟨c, u⟩ := c
    have h' := h
    simp only [Memory.cellsWf, Bool.and_eq_true, decide_eq_true_eq] at h'
    obtain ⟨⟨⟨hc, hch⟩, hu⟩, hrest⟩ := h'
    by_cases hlt : a < c
    · by_cases hv : v = Memory.unlisted
      · rw [Memory.update, if_pos hlt, if_pos hv]; exact h
      · rw [Memory.update, if_pos hlt, if_neg hv]
        simp only [Memory.cellsWf, Bool.and_eq_true, decide_eq_true_eq]
        exact ⟨⟨⟨hlo, hhi⟩, hv⟩, ⟨⟨by omega, hch⟩, hu⟩, hrest⟩
    · by_cases hac : a = c
      · subst hac
        by_cases hv : v = Memory.unlisted
        · rw [Memory.update, if_neg hlt, if_pos rfl, if_pos hv]
          exact Memory.cellsWf_mono hrest (by omega)
        · rw [Memory.update, if_neg hlt, if_pos rfl, if_neg hv]
          simp only [Memory.cellsWf, Bool.and_eq_true, decide_eq_true_eq]
          exact ⟨⟨⟨hlo, hhi⟩, hv⟩, hrest⟩
      · rw [Memory.update, if_neg hlt, if_neg hac]
        simp only [Memory.cellsWf, Bool.and_eq_true, decide_eq_true_eq]
        exact ⟨⟨⟨hc, hch⟩, hu⟩, ih hrest (by omega)⟩

theorem Memory.cellsWf_storeFrom {hi : Nat} (vs : List Word) {cells : List (Nat × Word)}
    (h : Memory.cellsWf 0 hi cells = true) {a : Nat} (ha : a + vs.length ≤ hi) :
    Memory.cellsWf 0 hi (Memory.storeFrom cells a vs) = true := by
  induction vs generalizing cells a with
  | nil => exact h
  | cons v rest ih =>
    rw [List.length_cons] at ha
    exact ih (Memory.cellsWf_update h (Nat.zero_le a) (by omega) v) (by omega)

/-- The pieces of the canonical form. -/
theorem Memory.wf_iff (m : Memory) :
    m.wf = true ↔ 1 ≤ m.words ∧ m.words ≤ 2 ^ 32 ∧ Memory.cellsWf 0 m.words m.cells = true := by
  simp only [Memory.wf, Bool.and_eq_true, decide_eq_true_eq, and_assoc]

/-- What a successful write is. -/
theorem Memory.write?_eq_some {m m' : Memory} {a : Nat} {v : Word} (h : m.write? a v = some m') :
    a < m.words ∧ m' = { m with cells := Memory.update m.cells a v } := by
  unfold Memory.write? Memory.valid at h
  by_cases ha : a < m.words
  · simp only [ha, decide_true, if_true, Option.some.injEq] at h; exact ⟨ha, h.symm⟩
  · simp [ha] at h

/-- A write keeps the canonical form. -/
theorem Memory.write?_wf {m m' : Memory} (hm : m.wf = true) {a : Nat} {v : Word} (h : m.write? a v = some m') :
    m'.wf = true := by
  obtain ⟨ha, rfl⟩ := Memory.write?_eq_some h
  obtain ⟨h1, h2, h3⟩ := (Memory.wf_iff m).1 hm
  exact (Memory.wf_iff _).2 ⟨h1, h2, Memory.cellsWf_update h3 (Nat.zero_le a) ha v⟩

/-- The loader keeps the canonical form. -/
theorem Memory.load?_wf {m m' : Memory} (hm : m.wf = true) {image : List Int} (h : m.load? image = some m') :
    m'.wf = true := by
  unfold Memory.load? at h
  by_cases hl : image.length ≤ m.words
  · rw [if_pos hl, Option.some.injEq] at h
    subst h
    obtain ⟨h1, h2, h3⟩ := (Memory.wf_iff m).1 hm
    exact (Memory.wf_iff _).2 ⟨h1, h2, Memory.cellsWf_storeFrom _ h3 (by simpa using hl)⟩
  · simp [hl] at h

/-- A memory of a size R13 allows starts in canonical form, whatever its initial words. -/
theorem Memory.ofWords_wf {words : Nat} (h1 : 1 ≤ words) (h2 : words ≤ 2 ^ 32) (init : List Word) :
    (Memory.ofWords words init).wf = true :=
  (Memory.wf_iff _).2 ⟨h1, h2, Memory.cellsWf_storeFrom _ rfl (by simp [Memory.ofWords])⟩

end Sys2Proof.Machine
end

