-- ==== Sys2Proof/Laws/State.lean ====
section
/-! SUPPORT. One lemma per field per update of the state, each true by rfl, so that no later proof unfolds a record
update. -/

namespace Sys2Proof.Machine

@[simp] theorem State.advancePc_regs (s : State) : s.advancePc.regs = s.regs := rfl
@[simp] theorem State.advancePc_pc (s : State) : s.advancePc.pc = s.pc + 1 := rfl
@[simp] theorem State.advancePc_flag (s : State) : s.advancePc.flag = s.flag := rfl
@[simp] theorem State.advancePc_halted (s : State) : s.advancePc.halted = s.halted := rfl
@[simp] theorem State.advancePc_fault (s : State) : s.advancePc.fault = s.fault := rfl
@[simp] theorem State.advancePc_mem (s : State) : s.advancePc.mem = s.mem := rfl

@[simp] theorem State.setFlag_regs (s : State) (f : CondFlag) : (s.setFlag f).regs = s.regs := rfl
@[simp] theorem State.setFlag_pc (s : State) (f : CondFlag) : (s.setFlag f).pc = s.pc := rfl
@[simp] theorem State.setFlag_flag (s : State) (f : CondFlag) : (s.setFlag f).flag = f := rfl
@[simp] theorem State.setFlag_halted (s : State) (f : CondFlag) : (s.setFlag f).halted = s.halted := rfl
@[simp] theorem State.setFlag_fault (s : State) (f : CondFlag) : (s.setFlag f).fault = s.fault := rfl
@[simp] theorem State.setFlag_mem (s : State) (f : CondFlag) : (s.setFlag f).mem = s.mem := rfl

@[simp] theorem State.setHalted_regs (s : State) : s.setHalted.regs = s.regs := rfl
@[simp] theorem State.setHalted_pc (s : State) : s.setHalted.pc = s.pc := rfl
@[simp] theorem State.setHalted_flag (s : State) : s.setHalted.flag = s.flag := rfl
@[simp] theorem State.setHalted_halted (s : State) : s.setHalted.halted = true := rfl
@[simp] theorem State.setHalted_fault (s : State) : s.setHalted.fault = s.fault := rfl
@[simp] theorem State.setHalted_mem (s : State) : s.setHalted.mem = s.mem := rfl

@[simp] theorem State.setMem_regs (s : State) (m : Memory) : (s.setMem m).regs = s.regs := rfl
@[simp] theorem State.setMem_pc (s : State) (m : Memory) : (s.setMem m).pc = s.pc := rfl
@[simp] theorem State.setMem_flag (s : State) (m : Memory) : (s.setMem m).flag = s.flag := rfl
@[simp] theorem State.setMem_halted (s : State) (m : Memory) : (s.setMem m).halted = s.halted := rfl
@[simp] theorem State.setMem_fault (s : State) (m : Memory) : (s.setMem m).fault = s.fault := rfl
@[simp] theorem State.setMem_mem (s : State) (m : Memory) : (s.setMem m).mem = m := rfl

@[simp] theorem State.raise_regs (s : State) (f : Fault) : (s.raise f).regs = s.regs := rfl
@[simp] theorem State.raise_pc (s : State) (f : Fault) : (s.raise f).pc = s.pc := rfl
@[simp] theorem State.raise_flag (s : State) (f : Fault) : (s.raise f).flag = s.flag := rfl
@[simp] theorem State.raise_halted (s : State) (f : Fault) : (s.raise f).halted = s.halted := rfl
@[simp] theorem State.raise_fault (s : State) (f : Fault) : (s.raise f).fault = some f := rfl
@[simp] theorem State.raise_mem (s : State) (f : Fault) : (s.raise f).mem = s.mem := rfl

/-- A register write is the same update of the same state whatever the slot, on every field but `regs` and `pc`. -/
theorem State.writeReg_cases (s : State) (i : Reg) (v : Word) :
    (i = pcReg ∧ s.writeReg i v = { s with pc := v }) ∨
    (i ≠ pcReg ∧ ∃ rs, s.writeReg i v = { s with regs := rs }) := by
  by_cases hi : i = pcReg
  · exact .inl ⟨hi, by simp [State.writeReg, hi]⟩
  · refine .inr ⟨hi, ?_⟩
    by_cases h : 1 ≤ i.val ∧ i.val ≤ 14
    · exact ⟨_, by rw [State.writeReg, if_neg hi, dif_pos h]⟩
    · exact ⟨s.regs, by rw [State.writeReg, if_neg hi, dif_neg h]⟩

@[simp] theorem State.writeReg_flag (s : State) (i : Reg) (v : Word) : (s.writeReg i v).flag = s.flag := by
  obtain ⟨-, h⟩ | ⟨-, rs, h⟩ := s.writeReg_cases i v <;> rw [h]

@[simp] theorem State.writeReg_halted (s : State) (i : Reg) (v : Word) : (s.writeReg i v).halted = s.halted := by
  obtain ⟨-, h⟩ | ⟨-, rs, h⟩ := s.writeReg_cases i v <;> rw [h]

@[simp] theorem State.writeReg_fault (s : State) (i : Reg) (v : Word) : (s.writeReg i v).fault = s.fault := by
  obtain ⟨-, h⟩ | ⟨-, rs, h⟩ := s.writeReg_cases i v <;> rw [h]

@[simp] theorem State.writeReg_mem (s : State) (i : Reg) (v : Word) : (s.writeReg i v).mem = s.mem := by
  obtain ⟨-, h⟩ | ⟨-, rs, h⟩ := s.writeReg_cases i v <;> rw [h]

end Sys2Proof.Machine
end

