-- ==== Sys2Proof/Laws/Registers.lean ====
section
/-! SUPPORT. What reading a register slot gives after each operation: the one spec of `readReg` and `writeReg`, which
later proofs cite instead of unfolding them. -/

namespace Sys2Proof.Machine

theorem State.writeReg_pc_of_ne (s : State) {i : Reg} (h : i ≠ pcReg) (v : Word) : (s.writeReg i v).pc = s.pc := by
  obtain ⟨hi, -⟩ | ⟨-, rs, e⟩ := s.writeReg_cases i v
  · exact absurd hi h
  · rw [e]

/-- Slots 0 to 14 are read from the cells alone, so two states with the same cells read alike there. -/
theorem State.readReg_congr {s t : State} (h : t.regs = s.regs) {i : Reg} (hi : i ≠ pcReg) :
    t.readReg i = s.readReg i := by
  simp only [State.readReg, if_neg hi, h]

theorem State.readReg_advancePc (s : State) {i : Reg} (hi : i ≠ pcReg) :
    s.advancePc.readReg i = s.readReg i :=
  State.readReg_congr (s := s) (t := s.advancePc) rfl hi

theorem State.readReg_setFlag (s : State) (f : CondFlag) (i : Reg) : (s.setFlag f).readReg i = s.readReg i := rfl

theorem State.readReg_setHalted (s : State) (i : Reg) : s.setHalted.readReg i = s.readReg i := rfl

theorem State.readReg_setMem (s : State) (m : Memory) (i : Reg) : (s.setMem m).readReg i = s.readReg i := rfl

theorem State.readReg_raise (s : State) (f : Fault) (i : Reg) : (s.raise f).readReg i = s.readReg i := rfl

/-- Reading slot `j` after a write of slot `i`: the value written where it is the same slot, unless that is slot 0. -/
theorem State.readReg_writeReg (s : State) (i j : Reg) (v : Word) :
    (s.writeReg i v).readReg j = if i = j ∧ i ≠ zeroReg then v else s.readReg j := by
  by_cases hi : i = pcReg
  · subst hi
    have e : s.writeReg pcReg v = { s with pc := v } := by simp [State.writeReg]
    by_cases hj : j = pcReg
    · subst hj; rw [e]; rfl
    · rw [e, if_neg (by rintro ⟨rfl, -⟩; exact hj rfl)]
      exact State.readReg_congr (s := s) (t := { s with pc := v }) rfl hj
  · by_cases h : 1 ≤ i.val ∧ i.val ≤ 14
    · have hz : i ≠ zeroReg := by rintro rfl; exact absurd h.1 (by decide)
      rw [State.writeReg, if_neg hi, dif_pos h]
      by_cases hj : j = pcReg
      · subst hj; rw [if_neg (fun e => hi e.1)]; rfl
      · by_cases hj' : 1 ≤ j.val ∧ j.val ≤ 14
        · simp only [State.readReg, if_neg hj, dif_pos hj', Vector.getElem_set]
          by_cases hij : i = j
          · subst hij; simp [hz]
          · have : i.val - 1 ≠ j.val - 1 := fun e => hij (Fin.ext (by omega))
            simp [this, hij]
        · have hij : i ≠ j := by rintro rfl; exact hj' h
          simp [State.readReg, hj, hj', hij]
    · have hz : i = zeroReg := Fin.ext (by
        have := i.isLt
        have h15 : i.val ≠ 15 := fun e => hi (Fin.ext e)
        show i.val = 0
        omega)
      rw [State.writeReg, if_neg hi, dif_neg h, if_neg (fun e => e.2 hz)]

end Sys2Proof.Machine
end

