-- ==== Sys2Proof/Laws/Exec.lean ====
section
/-! SUPPORT. What executing one instruction can do: one lemma per effect, and the case analysis over all seven
instructions that every invariant is derived from. -/

namespace Sys2Proof.Machine

/-- R145, R146: the ALU's flag is exactly one of M, Z, P, V. -/
theorem flagOf_cases (r : Word) : flagOf r = CondFlag.Z ∨ flagOf r = CondFlag.M ∨ flagOf r = CondFlag.P := by
  unfold flagOf; split
  · exact .inl rfl
  · split
    · exact .inr (.inl rfl)
    · exact .inr (.inr rfl)

@[simp] theorem State.arith_halted (s : State) (op : OpCode) (f : Fields) : (s.arith op f).halted = s.halted := by
  simp [State.arith]

@[simp] theorem State.arith_fault (s : State) (op : OpCode) (f : Fields) : (s.arith op f).fault = s.fault := by
  simp [State.arith]

@[simp] theorem State.arith_mem (s : State) (op : OpCode) (f : Fields) : (s.arith op f).mem = s.mem := by
  simp [State.arith]

@[simp] theorem State.arith_flag (s : State) (op : OpCode) (f : Fields) :
    (s.arith op f).flag = (s.aluOut op f).2 := by
  simp [State.arith]

/-- The two outcomes of a satisfied LOAD. -/
theorem State.loadEffect_cases (s : State) (f : Fields) :
    (s.mem.valid (s.effectiveAddr .load f).toNat = false ∧
      s.loadEffect f = s.raise (.loadOutOfRange s.pc (s.effectiveAddr .load f))) ∨
    (∃ v, s.mem.read? (s.effectiveAddr .load f).toNat = some v ∧
      s.loadEffect f = s.advancePc.writeReg f.target v) := by
  cases h : s.mem.read? (s.effectiveAddr .load f).toNat with
  | some v => exact .inr ⟨v, rfl, by simp only [State.loadEffect, h]⟩
  | none =>
    refine .inl ⟨?_, by simp only [State.loadEffect, h]⟩
    unfold Memory.read? at h
    by_cases hv : s.mem.valid (s.effectiveAddr .load f).toNat <;> simp_all

/-- The two outcomes of a satisfied STORE. -/
theorem State.storeEffect_cases (s : State) (f : Fields) :
    (s.mem.valid (s.effectiveAddr .store f).toNat = false ∧
      s.storeEffect f = s.raise (.storeOutOfRange s.pc (s.effectiveAddr .store f))) ∨
    (∃ m, s.mem.write? (s.effectiveAddr .store f).toNat (s.advancePc.readReg f.target) = some m ∧
      s.storeEffect f = s.advancePc.setMem m) := by
  cases h : s.mem.write? (s.effectiveAddr .store f).toNat (s.advancePc.readReg f.target) with
  | some m => exact .inr ⟨m, rfl, by simp only [State.storeEffect, h]⟩
  | none =>
    refine .inl ⟨?_, by simp only [State.storeEffect, h]⟩
    unfold Memory.write? at h
    by_cases hv : s.mem.valid (s.effectiveAddr .store f).toNat <;> simp_all

/-- Everything an instruction can do: an unsatisfied one only advances the pc; a satisfied one is one of the four
effects, with the opcode that makes it. -/
theorem exec_cases (i : Instr) (s : State) :
    (s.satisfies i.fields.cond = false ∧ exec i s = .next s.advancePc) ∨
    (s.satisfies i.fields.cond = true ∧
      ((∃ f, i = .halt f ∧ exec i s = .next s.advancePc.setHalted) ∨
       (∃ f, i = .load f ∧ exec i s = .next (s.loadEffect f)) ∨
       (∃ f, i = .store f ∧ exec i s = .next (s.storeEffect f)) ∨
       (∃ f, (i = .add f ∨ i = .sub f ∨ i = .mul f ∨ i = .div f) ∧ exec i s = .next (s.arith i.op f)))) := by
  cases i <;> rename_i f <;> cases hc : s.satisfies f.cond <;>
    simp [exec, execHalt, execLoad, execStore, execAdd, execSub, execMul, execDiv, Instr.fields, Instr.op, hc]

end Sys2Proof.Machine
end

