-- ==== Sys2Proof/Laws/PerInstr.lean ====
section
/-! SUPPORT. The family `Rebuild` (LAWS.json): an instruction is its opcode with its fields, so the record of
spec/30_encoding.md rule R95 and the constructors of `Instr` say the same. -/

namespace Sys2Proof.Laws.Rebuild

/-- An instruction rebuilt from its opcode and its fields is itself, and its opcode is one of the closed set. -/
def Statement (i : Instr) : Prop := i.op.instr i.fields = i ∧ i.op ∈ OpCode.all

theorem halt (f : Fields) : Statement (.halt f) := ⟨rfl, by simp [Instr.op, OpCode.all]⟩
theorem load (f : Fields) : Statement (.load f) := ⟨rfl, by simp [Instr.op, OpCode.all]⟩
theorem store (f : Fields) : Statement (.store f) := ⟨rfl, by simp [Instr.op, OpCode.all]⟩
theorem add (f : Fields) : Statement (.add f) := ⟨rfl, by simp [Instr.op, OpCode.all]⟩
theorem sub (f : Fields) : Statement (.sub f) := ⟨rfl, by simp [Instr.op, OpCode.all]⟩
theorem mul (f : Fields) : Statement (.mul f) := ⟨rfl, by simp [Instr.op, OpCode.all]⟩
theorem div (f : Fields) : Statement (.div f) := ⟨rfl, by simp [Instr.op, OpCode.all]⟩

end Sys2Proof.Laws.Rebuild
end

