-- ==== Sys2Proof/Laws/Step.lean ====
section
/-! SUPPORT. What fetching and a whole step can do, said once. -/

namespace Sys2Proof.Machine

/-- R151: the engine is stopped exactly when it is halted or a fault is recorded. -/
theorem State.stopped_iff (s : State) : s.stopped = true ↔ s.halted = true ∨ s.fault ≠ none := by
  unfold State.stopped State.engine
  by_cases hf : s.fault = none <;> cases hh : s.halted <;> simp [hf]

/-- The four ways the first half of a step ends. -/
theorem State.fetch_cases (s : State) :
    (s.stopped = true ∧ s.fetch = .idle) ∨
    (s.stopped = false ∧ s.mem.read? s.pc.toNat = none ∧ s.fetch = .fails (.fetchOutOfRange s.pc)) ∨
    (∃ w c, s.stopped = false ∧ s.mem.read? s.pc.toNat = some w ∧ decode w = .undeclared c ∧
      s.fetch = .fails (.illegalOpcode s.pc w)) ∨
    (∃ w i, s.stopped = false ∧ s.mem.read? s.pc.toNat = some w ∧ decode w = .valid i ∧
      s.fetch = .event ⟨s.pc, w, i⟩) := by
  cases hs : s.stopped with
  | true => exact .inl ⟨rfl, by rw [State.fetch, if_pos hs]⟩
  | false =>
    cases hr : s.mem.read? s.pc.toNat with
    | none => exact .inr (.inl ⟨rfl, rfl, by simp [State.fetch, hs, hr]⟩)
    | some w =>
      cases hd : decode w with
      | undeclared c => exact .inr (.inr (.inl ⟨w, c, rfl, rfl, hd, by simp [State.fetch, hs, hr, hd]⟩))
      | valid i => exact .inr (.inr (.inr ⟨w, i, rfl, rfl, hd, by simp [State.fetch, hs, hr, hd]⟩))

/-- Everything a step can do: nothing, one of the two faults of fetch and decode, or the decoded instruction. -/
theorem step_cases (s : State) :
    (s.stopped = true ∧ step s = .next s) ∨
    (s.stopped = false ∧ s.mem.read? s.pc.toNat = none ∧ step s = .next (s.raise (.fetchOutOfRange s.pc))) ∨
    (∃ w c, s.stopped = false ∧ s.mem.read? s.pc.toNat = some w ∧ decode w = .undeclared c ∧
      step s = .next (s.raise (.illegalOpcode s.pc w))) ∨
    (∃ w i, s.stopped = false ∧ s.mem.read? s.pc.toNat = some w ∧ decode w = .valid i ∧ step s = exec i s) := by
  obtain ⟨h, e⟩ | ⟨h, hr, e⟩ | ⟨w, c, h, hr, hd, e⟩ | ⟨w, i, h, hr, hd, e⟩ := s.fetch_cases
  · exact .inl ⟨h, by simp only [step, e]⟩
  · exact .inr (.inl ⟨h, hr, by simp only [step, e]⟩)
  · exact .inr (.inr (.inl ⟨w, c, h, hr, hd, by simp only [step, e]⟩))
  · exact .inr (.inr (.inr ⟨w, i, h, hr, hd, by simp only [step, e]⟩))

end Sys2Proof.Machine
end

