-- ==== Sys2Proof/Tests/Slice0.lean ====
section
/-! SUPPORT. Small tests, and for every obligation with hypotheses a concrete state and operands that meet them
together. The expected values of the tests come from spec/95_test_vectors.md; the vector is named at each. -/

namespace Sys2Proof.Tests

open Sys2Proof Sys2Proof.Machine Sys2Proof.Assembler

/-! ### Helpers -/

/-- The state after reset with a given pc, flag, registers x[1], x[2], x[3] and first words of a 16-word memory, as
section 5 of 95_test_vectors.md starts its vectors. -/
def start (pc : Word) (flag : CondFlag) (x1 x2 x3 : Word) (words : List Word) : State :=
  { ((((State.reset.writeReg 1 x1).writeReg 2 x2).writeReg 3 x3).setFlag flag).setMem (Memory.ofWords 16 words) with
    pc := pc }

/-- The same with one instruction placed at the pc. -/
def startWith (w : Nat) (pc : Word) (flag : CondFlag) (x1 x2 x3 : Word) (words : List Word) : State :=
  (start pc flag x1 x2 x3 words).withFetchWord 32 w

/-- The state a step leads to. -/
def after (s : State) : State :=
  match step s with
  | .next t => t
  | .fault _ => s
  | .refused _ => s

/-- The parts of a state a vector speaks of: x[1], x[2], x[3], pc, flag, halted, fault code. -/
def view (s : State) : List Word × CondFlag × Bool × Nat :=
  ([s.readReg 1, s.readReg 2, s.readReg 3, s.pc], s.flag, s.halted, s.faultCode)

/-- The state a command leads to, if it leads to one. -/
def afterCommand (c : Command) (s : State) : Option State :=
  match command c s with
  | .next t => some t
  | .fault _ => none
  | .refused _ => none

/-! ### Well-formedness: each check refuses an ill-formed term -/

theorem test_wf_ok : (Instr.add ⟨15, 1, 2, 3, -512, 0⟩).wellFormed = true ∧
    (Instr.halt ⟨0, 15, 0, 0, 511, 0⟩).wellFormed = true := by decide
theorem test_wf_offset_too_large : (Instr.add ⟨15, 1, 2, 3, 512, 0⟩).wellFormed = false := by decide
theorem test_wf_offset_too_small : (Instr.load ⟨15, 1, 2, 3, -513, 0⟩).wellFormed = false := by decide
theorem test_wf_reserved_bit_set : (Instr.halt ⟨15, 0, 0, 0, 0, 1⟩).wellFormed = false := by decide

/-! ### Codec (tables X, I, G; rule R81) -/

theorem test_extract : Layout.js32.offset.extractSigned 0x1E3B7200#32 = -512 ∧
    Layout.js32.cond.extractSigned 0x1E3B7200#32 = -8 ∧ Layout.js32.reserved.extractSigned 0x80000000#32 = -1 ∧
    Layout.js32.src1.extract 0x1E3B7200#32 = 13 ∧ Layout.js32.op.extract 0xFFFFFFFF#32 = 31 := by decide
theorem test_insert : Layout.js32.offset.insert (-2) 0 = 0x000003FE#32 ∧
    Layout.js32.offset.insert 1024 0 = 0 ∧ Layout.js32.offset.insert (-513) 0 = 0x000001FF#32 ∧
    Layout.js32.op.insert 7 0xFFFFFFFF#32 = 0x9FFFFFFF#32 ∧
    Layout.js32.target.insert 16 0xFFFFFFFF#32 = 0xFFC3FFFF#32 := by decide
theorem test_signExtend : signExtend 512 10 = -512 ∧ signExtend (-513) 10 = 511 ∧ signExtend 1 1 = -1 ∧
    signExtend 0x80000000 32 = -2147483648 := by decide
theorem test_field_refused : BitField.make? (-1) 3 = none ∧ BitField.make? 5 4 = none ∧
    BitField.make? 0 32 = none ∧ (BitField.make? 0 31).isSome = true := by decide

/-! ### Decoding, one word per constructor, written from the layout (table E), and undeclared words (table K) -/

theorem test_decode_halt : decode 0x03C00000#32 = .valid (.halt ⟨15, 0, 0, 0, 0, 0⟩) := by decide
theorem test_decode_load : decode 0x049E27FF#32 = .valid (.load ⟨2, 7, 8, 9, -1, 0⟩) := by decide
theorem test_decode_store : decode 0x0A43C100#32 = .valid (.store ⟨9, 0, 15, 0, 256, 0⟩) := by decide
theorem test_decode_add : decode 0b0_00011_1111_0001_0010_0011_0000000101#32 = .valid (.add ⟨15, 1, 2, 3, 5, 0⟩) := by
  decide
theorem test_decode_sub : decode 0b0_00101_0011_0010_0001_0011_1111110100#32 = .valid (.sub ⟨3, 2, 1, 3, -12, 0⟩) := by
  decide
theorem test_decode_mul : decode 0x1B915B9C#32 = .valid (.mul ⟨14, 4, 5, 6, -100, 0⟩) := by decide
theorem test_decode_div : decode 0x1E3B7200#32 = .valid (.div ⟨8, 14, 13, 12, -512, 0⟩) := by decide
theorem test_decode_reserved_bit : decode 0x83C00000#32 = .valid (.halt ⟨15, 0, 0, 0, 0, 0⟩) := by decide
theorem test_decode_undeclared : decode 0x10000000#32 = .undeclared 4 ∧ decode 0x23C00000#32 = .undeclared 8 ∧
    decode 0xFFFFFFF9#32 = .undeclared 31 := by decide
theorem test_encode_offset_wraps : encode (.add ⟨15, 1, 0, 0, 512, 0⟩) = 0x0FC40200#32 ∧
    encode (.add ⟨15, 1, 0, 0, -1024, 0⟩) = 0x0FC40000#32 := by decide
theorem test_decodeTableWord : decodeTableWord 32 0x03C00000 = some (.halt ⟨15, 0, 0, 0, 0, 0⟩) ∧
    decodeTableWord 32 0x7C000000 = none := by decide

/-! ### The ALU (section 5.1) -/

theorem test_alu_add : alu .add 5 3 = (8, CondFlag.P) ∧ alu .add 0x7FFFFFFF 1 = (0x80000000, CondFlag.M) := by decide
theorem test_alu_sub : alu .sub 3 3 = (0, CondFlag.Z) ∧ alu .sub 3 5 = (0xFFFFFFFE, CondFlag.M) := by decide
theorem test_alu_mul : alu .mul 0xFFFFFFFD 5 = (0xFFFFFFF1, CondFlag.M) ∧
    alu .mul 0x12345678 0x9ABCDEF0 = (0x242D2080, CondFlag.P) := by decide
theorem test_alu_div : alu .div 12 0 = (0, CondFlag.V) ∧ alu .div 0xFFFFFFF9 2 = (0xFFFFFFFC, CondFlag.M) ∧
    alu .div 7 0xFFFFFFFE = (0xFFFFFFFC, CondFlag.M) ∧ alu .div 0x80000000 0xFFFFFFFF = (0x80000000, CondFlag.M) ∧
    alu .div 1 0x80000000 = (0xFFFFFFFF, CondFlag.M) := by decide
theorem test_alu_halt : alu .halt 123 456 = (0, CondFlag.Z) := by decide

/-! ### One step of each instruction (sections 5.2 to 5.6) -/

/-- A5: the write to slot 0 is dropped, the flag is set. -/
theorem test_add_slot_zero : view (after (startWith 0x0FC04800 0 4 5 0xFFFFFFFB 0 [])) =
    ([5, 0xFFFFFFFB, 0, 1], 2, false, 0) := by decide
/-- J2: a taken backward jump; the flag describes the target address. -/
theorem test_add_jump : view (after (startWith 0x0CBC3FFD 6 2 0 0 0 [])) = ([0, 0, 0, 3], 4, false, 0) := by decide
/-- S5: the offset belongs to operand2. -/
theorem test_sub_offset : view (after (startWith 0x17CC4804 0 15 10 3 0 [])) = ([10, 3, 3, 1], 4, false, 0) := by decide
/-- J12: SUB into the pc wraps. -/
theorem test_sub_pc : view (after (startWith 0x17FFC002 1 15 0 0 0 [])) = ([0, 0, 0, 0xFFFFFFFF], 1, false, 0) := by
  decide
/-- M5. -/
theorem test_mul_offset : view (after (startWith 0x1BCC4801 0 15 6 6 0 [])) = ([6, 6, 42, 1], 4, false, 0) := by decide
/-- M4: the product wraps. -/
theorem test_mul_wraps : view (after (startWith 0x1BCC4800 0 15 0x7FFFFFFF 2 0 [])) =
    ([0x7FFFFFFF, 2, 0xFFFFFFFE, 1], 1, false, 0) := by decide
/-- D7: the zero test is on operand2. -/
theorem test_div_zero : view (after (startWith 0x1FCC4BFE 0 15 5 2 0x55 [])) = ([5, 2, 0, 1], 8, false, 0) := by decide
/-- D2: floor, not truncation. -/
theorem test_div_floor : view (after (startWith 0x1FCC4800 0 15 0xFFFFFFF9 2 0 [])) =
    ([0xFFFFFFF9, 2, 0xFFFFFFFC, 1], 1, false, 0) := by decide
/-- L3: the flag stays although the value is negative. -/
theorem test_load : view (after (startWith 0x07C48C04 0 2 0 2 3 [0, 0, 0, 0, 0, 0, 0, 0, 0, 0xFFFFFFFF])) =
    ([0xFFFFFFFF, 2, 3, 1], 2, false, 0) := by decide
/-- L12: target slot 0 does not suppress the fault. -/
theorem test_load_fault : (after (startWith 0x07C00010 0 15 0 0 0 [])).fault = some (.loadOutOfRange 0 0x10) ∧
    (after (startWith 0x07C00010 0 15 0 0 0 [])).pc = 0 := by decide
/-- T2: slot 15 as the stored register reads a + 1. -/
theorem test_store_pc : (after (startWith 0x0BFC0009 4 15 0 0 0 [])).mem.read? 9 = some 5 ∧
    view (after (startWith 0x0BFC0009 4 15 0 0 0 [])) = ([0, 0, 0, 5], 15, false, 0) := by decide
/-- T7: a faulting store changes nothing else. -/
theorem test_store_fault : after (startWith 0x0BC48000 0 15 7 16 0 []) =
    (startWith 0x0BC48000 0 15 7 16 0 []).raise (.storeOutOfRange 0 0x10) := by decide
/-- H4: the operand fields are ignored. -/
theorem test_halt : view (after (startWith 0x03D59FFF 7 1 1 2 3 [])) = ([1, 2, 3, 8], 1, true, 0) := by decide
/-- H2: an unsatisfied HALT does not halt. -/
theorem test_halt_unsatisfied : view (after (startWith 0x00800000 0 4 0 0 0 [])) = ([0, 0, 0, 1], 4, false, 0) := by
  decide

/-! ### Faults, commands and the assembler -/

/-- F1 and F3. -/
theorem test_fetch_faults : (after (start 16 15 0 0 0 [])).fault = some (.fetchOutOfRange 16) ∧
    (after (start 2 15 0 0 0 [0, 0, 0x10000000])).fault = some (.illegalOpcode 2 0x10000000) := by decide
/-- Z3 and Z4. -/
theorem test_load_command :
    (afterCommand (.load [-1, 4294967296, 4294967295]) (start 0 15 0 0 0 [7, 7, 7])).map
        (fun t => (t.mem.read? 0, t.mem.read? 1, t.mem.read? 2)) = some (some 0xFFFFFFFF, some 0, some 0xFFFFFFFF) ∧
    afterCommand (.load (List.replicate 17 0)) (start 0 15 0 0 0 []) = none := by decide
/-- P1: four steps, halted, pc 4, x[1] = -1, flag M. -/
theorem test_program_one : (afterCommand (.run 0 10)
      (start 7 15 0 0 0 [0x0BC43C04, 0x17C40001, 0x0D3C3FFE, 0x03C00000, 0])).map view =
    some ([0xFFFFFFFF, 0, 0, 4], 1, true, 0) := by decide
/-- The example program of section 4, assembled. -/
theorem test_assemble : assemble
    ["again:  STORE r1,x".toList, "        SUB   r1,r0,r0[1]".toList, "        JUMP/P again".toList,
     "        HALT r0,r0,r0".toList, "x:      DATA 0".toList] =
    [0x0BC43C04, 0x17C40001, 0x0D3C3FFE, 0x03C00000, 0] := by decide
/-- R251, U16: a second label, a stray colon or an empty predicate is a syntax error, and gives no word. -/
theorem test_malformed : readLine "a: b: LOAD r1,x".toList = none ∧ readLine "ADD b: r1,r0,r0".toList = none ∧
    readLine "LOAD/ r1,x".toList = none ∧ readLine "JUMP/P:Q x".toList = none ∧
    assemble ["x: b: LOAD r1,x".toList] = [] := by decide
/-- R254, R256: a name that names nothing reaches Phase 2, and a two-operand line lowers to text that reads as FULL. -/
theorem test_lowered : readLine "FOO r1,x # note".toList = some ⟨none, .memop "FOO".toList none "r1".toList "x".toList⟩ ∧
    lowerMemop "LOAD".toList none "r1".toList "x".toList 4 = "LOAD r1, r0, r15[4] #x".toList ∧
    readLine "LOAD r1, r0, r15[4] #x".toList =
      some ⟨none, .full "LOAD".toList none "r1".toList "r0".toList "r15".toList 4⟩ := by decide
/-- E5, W4: canonical text and CondFlag names. -/
theorem test_text : (Instr.div ⟨8, 14, 13, 12, -512, 0⟩).text = "DIV/V   r14,r13,r12[-512]".toList ∧
    CondFlag.text 5 = "MP".toList ∧ readPred "PM".toList = some 5 := by decide
/-- The word placed by withFetchWord is the one the first step after reset runs (vector H1). -/
theorem test_withFetchWord : view (after (State.reset.withFetchWord 32 0x03C00000)) = ([0, 0, 0, 1], 15, true, 0) := by
  decide

/-! ### Witnesses: the hypotheses of each obligation are met together -/

/-- A state at rest in the middle of a small memory. -/
def mid : State := start 3 15 5 2 0 [1, 2, 3, 4, 5, 6, 7, 8]

theorem witness_ExtractReadsFieldBits : ∃ F : BitField, F.low = 0 ∧ F.high = 31 :=
  ⟨⟨0, 31, by decide, by decide⟩, by decide⟩
theorem witness_InsertReplacesFieldBits : ∃ (F : BitField) (k j : Nat), k < 32 ∧ j < 32 ∧
    (F.low ≤ k ∧ k ≤ F.high) ∧ ¬(F.low ≤ j ∧ j ≤ F.high) := ⟨Layout.js32.reserved, 31, 0, by decide⟩
theorem witness_PackUnpackRoundTrip : ∃ F G : BitField, F.high < G.low ∧ (G.high < F.low ∨ F.high < G.low) :=
  ⟨Layout.js32.offset, Layout.js32.src2, by decide⟩
theorem witness_SignExtendIsStableBijection : ∃ (n m : Nat) (v y : Int), n = 1 ∧ m = 32 ∧ 1 ≤ n ∧ n ≤ 32 ∧ 1 ≤ m ∧
    m ≤ 32 ∧ 0 ≤ v ∧ v < 2 ^ n ∧ v < 2 ^ m ∧ -(2 ^ (n - 1)) ≤ y ∧ y < 2 ^ (n - 1) ∧ -(2 ^ (m - 1)) ≤ y :=
  ⟨1, 32, 1, -1, by decide⟩
theorem witness_DecodeReadsFields : ∃ (w w' : Word) (i : Instr) (c : Nat), decode w = .valid i ∧
    decode w' = .undeclared c := ⟨0x1FFFFFFF#32, 0xFFFFFFFF#32, .div ⟨15, 15, 15, 15, -1, 0⟩, 31, by decide⟩
theorem witness_ReservedBitIsIgnored : ∃ (w : Word) (i : Instr), w.getLsbD 31 = true ∧ decode w = .valid i :=
  ⟨0x8FC48C05#32, .add ⟨15, 1, 2, 3, 5, 0⟩, by decide⟩
theorem witness_ReservedBitIsIgnored_runs : ∃ (w : Word) (i : Instr) (s t : State), decode w = .valid i ∧
    s.halted = false ∧ s.fault = none ∧ s.mem.read? s.pc.toNat = some (w ||| 0x80000000#32) ∧
    t.halted = false ∧ t.fault = none ∧ t.mem.read? t.pc.toNat = some (w &&& 0x7FFFFFFF#32) :=
  ⟨0x03C00000#32, .halt ⟨15, 0, 0, 0, 0, 0⟩, start 2 15 0 0 0 [0, 0, 0x83C00000], start 2 15 0 0 0 [0, 0, 0x03C00000],
    by decide⟩
theorem witness_OffsetIsMasked : ∃ f g : Fields, -512 ≤ f.offset ∧ f.offset ≤ 511 ∧ ¬(g.offset ≤ 511) :=
  ⟨⟨0, 0, 0, 0, -512, 0⟩, ⟨0, 0, 0, 0, 512, 0⟩, by decide⟩
theorem witness_DecodeOfEncodeIsIdentity : ∃ (i : Instr) (w : Word), i.wellFormed = true ∧ decode w = .valid i :=
  ⟨.mul ⟨0, 15, 15, 15, 511, 0⟩, 0x183FFDFF#32, by decide⟩
theorem witness_PredicateNamesReadBack : ∃ c d : CondFlag, CondFlag.text c = CondFlag.text d := ⟨8, 8, rfl⟩
theorem witness_CanonicalTextReassembles : ∃ i : Instr, i.fields.reserved = 0 := ⟨.sub ⟨3, 2, 1, 3, -9999, 0⟩, rfl⟩
theorem witness_JumpIsRelativeAdd : ∃ (labels : Labels) (name : Text) (b : Nat), labels.address name = some b :=
  ⟨[(['a'], 0)], ['a'], 0, by decide⟩
theorem witness_MemoryOperandIsPcRelative : ∃ (labels : Labels) (name : Text) (b : Nat),
    labels.address name = some b := ⟨[(['x'], 4), (['x'], 1)], ['x'], 4, by decide⟩
theorem witness_LastLabelDefinitionWins : ∃ (t u name : Text) (body : Body),
    readLine t = some ⟨some name, body⟩ ∧ ∀ l, readLine u = some l → l.label ≠ some name := by
  refine ⟨"x: DATA 7".toList, "y: DATA 8".toList, ['x'], .data 7, by decide, fun l h => ?_⟩
  have e : readLine "y: DATA 8".toList = some ⟨some ['y'], .data 8⟩ := by decide
  rw [e] at h
  cases h
  decide
theorem witness_ObjectFileLoads : ∃ (long full : List Int) (s : State) (i a : Nat), s.mem.wf = true ∧
    s.mem.words < long.length ∧ full.length ≤ s.mem.words ∧ i < full.length ∧ s.mem.words ≤ full.length ∧
    full.length ≤ a := ⟨List.replicate 17 1, List.replicate 16 (-1), mid, 15, 16, by decide⟩
theorem witness_DivFloorsTheQuotient : ∃ b c : Word, b ≠ 0 ∧ c ≠ 0 ∧ 0 < b.toInt ∧ c.toInt < 0 :=
  ⟨1#32, 0x80000000#32, by decide⟩
theorem witness_DivisionByZeroIsFlagV : ∃ (f : Fields) (s : State), s.satisfies f.cond = true ∧ s.operand2 f = 0 :=
  ⟨⟨15, 3, 1, 2, -2, 0⟩, mid, by decide⟩
theorem witness_SlotZeroDiscardsWrites : ∃ (f : Fields) (s : State) (op : OpCode), f.target = 0 ∧
    s.satisfies f.cond = true ∧ op ∈ [OpCode.add, .sub, .mul, .div] ∧
    s.mem.valid (s.effectiveAddr .load f).toNat = true := ⟨⟨15, 0, 0, 0, 15, 0⟩, mid, .div, by decide⟩
theorem witness_OrdinarySlotsHoldWords : ∃ r q : Reg, r ≠ 0 ∧ r ≠ 15 ∧ q ≠ r := ⟨14, 1, by decide⟩
theorem witness_MemoryReadsLastWrite : ∃ (m : Memory) (a b c : Nat), m.wf = true ∧ a < m.words ∧ b ≠ a ∧
    m.words ≤ c := ⟨mid.mem, 15, 14, 16, by decide⟩
theorem witness_CanonicalMemoryIsUnique : ∃ m m' : Memory, m.wf = true ∧ m'.wf = true ∧ m.words = m'.words ∧
    ∀ a, m.read? a = m'.read? a :=
  ⟨Memory.ofWords 4 [1, 0, 2], { Memory.ofWords 4 [] with cells := [(0, 1), (2, 2)] }, by decide, by decide, by decide,
    fun _ => rfl⟩
theorem witness_PowerOnMemoryIsMemInit : ∃ (c : Config) (a b : Nat), a < c.memWords ∧ c.memWords ≤ b :=
  ⟨Config.js32, 65535, 65536, by decide⟩
theorem witness_PredicateIsSharedFlag : ∃ (s : State) (cond : CondFlag) (i : Instr), s.flag ≠ 0 ∧ FlagLegal s.flag ∧
    s.flag = CondFlag.ALWAYS ∧ cond ≠ CondFlag.NEVER ∧ s.satisfies i.fields.cond = false :=
  ⟨mid, 8, .halt ⟨0, 0, 0, 0, 0, 0⟩, by decide, Or.inl (by decide), by decide⟩
theorem witness_UnsatisfiedOnlyAdvancesPc : ∃ (i : Instr) (s : State), s.satisfies i.fields.cond = false :=
  ⟨.store ⟨0, 1, 2, 3, 0, 0⟩, mid, by decide⟩

/-- The hypotheses of the result statements of ADD, SUB, MUL, DIV, with a target that is an ordinary slot. -/
theorem witness_arithmetic : ∃ (f : Fields) (s : State) (op : OpCode), op ∈ [OpCode.add, .sub, .mul, .div] ∧
    s.satisfies f.cond = true ∧ f.target ≠ 0 ∧ f.target ≠ pcReg := ⟨⟨15, 3, 1, 2, 1, 0⟩, mid, .mul, by decide⟩
theorem witness_ArithmeticWritesAluOutput : ∃ (f : Fields) (s : State) (op : OpCode),
    op ∈ [OpCode.add, .sub, .mul, .div] ∧ s.satisfies f.cond = true ∧ f.target ≠ 0 :=
  ⟨⟨1, 15, 1, 2, 1, 0⟩, mid, .sub, by decide⟩
theorem witness_AddWritesSum : ∃ (f : Fields) (s : State), s.satisfies f.cond = true ∧ f.target ≠ 0 :=
  ⟨⟨2, 1, 1, 2, 511, 0⟩, mid, by decide⟩
theorem witness_SubWritesDifference : ∃ (f : Fields) (s : State), s.satisfies f.cond = true ∧ f.target ≠ 0 :=
  ⟨⟨4, 14, 0, 2, -512, 0⟩, mid, by decide⟩
theorem witness_MulWritesLowProduct : ∃ (f : Fields) (s : State), s.satisfies f.cond = true ∧ f.target ≠ 0 :=
  ⟨⟨8, 15, 15, 15, 0, 0⟩, mid, by decide⟩
theorem witness_DivWritesFloorQuotient : ∃ (f g : Fields) (s : State), s.satisfies f.cond = true ∧ f.target ≠ 0 ∧
    s.satisfies g.cond = true ∧ s.readReg f.src2 + BitVec.ofInt 32 f.offset = 0 ∧
    s.readReg g.src2 + BitVec.ofInt 32 g.offset ≠ 0 := ⟨⟨15, 3, 1, 0, 0, 0⟩, ⟨15, 3, 1, 2, 0, 0⟩, mid, by decide⟩
theorem witness_LoadCopiesWord : ∃ (f : Fields) (s : State) (v : Word), s.satisfies f.cond = true ∧
    s.mem.read? (SumOfOperands s f).toNat = some v ∧ f.target ≠ 0 := ⟨⟨15, 1, 1, 2, 0, 0⟩, mid, 8, by decide⟩
theorem witness_LoadOutOfRangeFaults : ∃ (f : Fields) (s : State), s.satisfies f.cond = true ∧
    s.mem.words ≤ (SumOfOperands s f).toNat := ⟨⟨15, 0, 0, 0, 16, 0⟩, mid, by decide⟩
theorem witness_StoreWritesWord : ∃ (f g : Fields) (s : State), s.satisfies f.cond = true ∧ s.mem.wf = true ∧
    s.mem.valid (s.effectiveAddr .store f).toNat = true ∧ f.target = 15 ∧ s.satisfies g.cond = true ∧
    s.mem.valid (s.effectiveAddr .store g).toNat = true ∧ g.target = 0 :=
  ⟨⟨15, 15, 0, 0, 15, 0⟩, ⟨15, 0, 0, 15, -3, 0⟩, mid, by decide⟩
theorem witness_StoreOutOfRangeFaults : ∃ (f : Fields) (s : State), s.satisfies f.cond = true ∧
    s.mem.words ≤ (SumOfOperands s f).toNat := ⟨⟨15, 1, 0, 0, -1, 0⟩, mid, by decide⟩
theorem witness_HaltStopsTheEngine : ∃ (f g : Fields) (s t : State), s.satisfies f.cond = true ∧
    s.satisfies g.cond = false ∧ t.halted = true :=
  ⟨⟨15, 5, 6, 7, -1, 0⟩, ⟨0, 0, 0, 0, 0, 0⟩, mid, mid.setHalted, by decide⟩
theorem witness_SlotFifteenReadsOwnAddress : ∃ (f : Fields) (s : State) (cond : CondFlag) (target : Reg),
    f.src1 = 15 ∧ f.src2 = 15 ∧ target ≠ 0 ∧ s.satisfies cond = true := ⟨⟨0, 0, 15, 15, 0, 0⟩, mid, 15, 15, by decide⟩
theorem witness_WritingSlotFifteenJumps : ∃ (f : Fields) (s : State) (op : OpCode) (v : Word), f.target = 15 ∧
    s.satisfies f.cond = true ∧ op ∈ [OpCode.add, .sub, .mul, .div] ∧
    s.mem.read? (s.effectiveAddr .load f).toNat = some v := ⟨⟨15, 15, 1, 2, 0, 0⟩, mid, .add, 8, by decide⟩
theorem witness_StoringSlotFifteenStoresNext : ∃ (f : Fields) (s : State), f.target = 15 ∧
    s.satisfies f.cond = true ∧ s.mem.wf = true ∧ s.mem.valid (s.effectiveAddr .store f).toNat = true ∧
    f.src1 = 15 ∧ f.src2 = 15 := ⟨⟨15, 15, 15, 15, 9, 0⟩, mid, by decide⟩
theorem witness_EffectiveAddressForms : ∃ (f : Fields) (op : OpCode), (op = .load ∨ op = .store) ∧ f.src1 = 0 ∧
    f.src2 = 0 ∧ f.offset = 0 := ⟨⟨15, 1, 0, 0, 0, 0⟩, .store, by decide⟩
theorem witness_EffectiveAddressForms_pc : ∃ f : Fields, f.src1 = 0 ∧ f.src2 = 15 := ⟨⟨15, 1, 0, 15, 4, 0⟩, by decide⟩

/-- A STORE over the next instruction: at 3, `STORE r1,r0,r15[1]` with a HALT in x[1]. -/
def patching : State := start 3 15 0x03C00000 0 0 [0, 0, 0, 0x0BC43C01]

theorem witness_StepRunsDecodedInstruction : ∃ (s : State) (w : Word) (i : Instr), s.halted = false ∧ s.fault = none ∧
    s.mem.read? s.pc.toNat = some w ∧ decode w = .valid i :=
  ⟨patching, 0x0BC43C01#32, .store ⟨15, 1, 0, 15, 1, 0⟩, by decide⟩
theorem witness_StoppedStepChangesNothing : ∃ s t : State, s.halted = true ∧ t.fault ≠ none ∧ t.halted = false :=
  ⟨mid.setHalted, mid.raise (.fetchOutOfRange 3), by decide⟩
/-- Each of the four causes of FaultsHaveTheirCauses: a fetch at 16, an undeclared opcode, a LOAD and a STORE at 16. -/
theorem witness_FaultsHaveTheirCauses :
    (∃ s t : State, s.halted = false ∧ s.fault = none ∧ step s = .next t ∧ t.fault = some (.fetchOutOfRange 16)) ∧
    (∃ s t : State, s.halted = false ∧ s.fault = none ∧ step s = .next t ∧
      t.fault = some (.illegalOpcode 0 0xFFFFFFF9)) ∧
    (∃ s t : State, s.halted = false ∧ s.fault = none ∧ step s = .next t ∧ t.fault = some (.loadOutOfRange 0 16)) ∧
    (∃ s t : State, s.halted = false ∧ s.fault = none ∧ step s = .next t ∧ t.fault = some (.storeOutOfRange 0 16)) :=
  ⟨⟨start 16 15 0 0 0 [], _, rfl, rfl, rfl, by decide⟩,
   ⟨start 0 15 0 0 0 [0xFFFFFFF9], _, rfl, rfl, rfl, by decide⟩,
   ⟨start 0 15 0 0 0 [0x07C40010], _, rfl, rfl, rfl, by decide⟩,
   ⟨start 0 15 0 16 0 [0x0BC00800], _, rfl, rfl, rfl, by decide⟩⟩
theorem witness_FaultsArePrecise : ∃ s t : State, step s = .next t ∧ t.fault ≠ none :=
  ⟨start 16 15 0 0 0 [], _, rfl, by decide⟩
theorem witness_FaultsArePrecise_recorded : ∃ s t : State, step s = .next t ∧ t.fault ≠ none ∧ s.fault ≠ none :=
  ⟨mid.raise (.fetchOutOfRange 3), _, rfl, by decide⟩
theorem witness_FlagWrittenOnlyByArithmetic : ∃ (i j k : Instr) (s t u : State), writesFlag i = true ∧
    s.satisfies i.fields.cond = true ∧ writesFlag j = false ∧ exec j s = .next t ∧ writesFlag k = true ∧
    s.satisfies k.fields.cond = false ∧ exec k s = .next u :=
  ⟨.add ⟨8, 1, 0, 0, 0, 0⟩, .load ⟨15, 1, 0, 0, 15, 0⟩, .div ⟨0, 1, 0, 0, 0, 0⟩, mid, _, _, by decide, by decide,
    by decide, rfl, by decide, by decide, rfl⟩
theorem witness_FlagWrittenOnlyByArithmetic_step : ∃ s t : State, step s = .next t ∧ t.flag ≠ s.flag :=
  ⟨start 0 15 0 0 0 [0x0FC40007], _, rfl, by decide⟩
theorem witness_HaltedSetOnlyByHalt : ∃ s t : State, step s = .next t ∧ t.halted ≠ s.halted :=
  ⟨start 0 15 0 0 0 [0x03C00000], _, rfl, by decide⟩
theorem witness_HaltedSetOnlyByHalt_load : ∃ (image : List Int) (f : Fields) (s t : State),
    s.satisfies f.cond = true ∧ command (.load image) s = .next t := ⟨[-1, 7], ⟨1, 0, 0, 0, 0, 0⟩, mid, _, by decide, rfl⟩
theorem witness_HaltedSetOnlyByHalt_stopped : ∃ s : State, s.halted = true := ⟨mid.setHalted, rfl⟩
theorem witness_MemoryWrittenOnlyByStore : ∃ (s t : State) (a : Nat), s.mem.wf = true ∧ step s = .next t ∧
    t.mem.read? a ≠ s.mem.read? a := ⟨patching, _, 4, by decide, rfl, by decide⟩
theorem witness_OnlyNamedRegistersMatter : ∃ (i : Instr) (q : Reg), q ≠ 15 ∧ q ≠ i.fields.src1 ∧ q ≠ i.fields.src2 ∧
    (i.op = .store → q ≠ i.fields.target) := ⟨.store ⟨15, 1, 0, 15, 1, 0⟩, 14, by decide⟩
theorem witness_OnlyNamedRegistersMatter_target : ∃ (i : Instr) (q : Reg), q ≠ 15 ∧ q ≠ i.fields.src1 ∧
    q ≠ i.fields.src2 ∧ i.op ≠ .store ∧ q = i.fields.target := ⟨.add ⟨15, 1, 0, 15, 1, 0⟩, 1, by decide⟩
theorem witness_FlowIsSequential : ∃ (s t : State) (w : Word) (i : Instr), s.halted = false ∧ s.fault = none ∧
    s.mem.read? s.pc.toNat = some w ∧ decode w = .valid i ∧ step s = .next t ∧ t.fault = none ∧
    (i.fields.target = 15 → s.satisfies i.fields.cond = true → i.op = .halt ∨ i.op = .store) :=
  ⟨start 0 15 0 0 0 [0x0BFC0009], _, 0x0BFC0009#32, .store ⟨15, 15, 0, 0, 9, 0⟩, rfl, rfl, by decide, by decide, rfl,
    by decide, by decide⟩
theorem witness_StoreIsSeenByNextFetch : ∃ (s : State) (w : Word) (f : Fields) (j : Instr), s.halted = false ∧
    s.fault = none ∧ s.mem.wf = true ∧ s.mem.read? s.pc.toNat = some w ∧ decode w = .valid (.store f) ∧
    s.satisfies f.cond = true ∧ s.effectiveAddr .store f = s.pc + 1 ∧ s.mem.valid (s.pc + 1).toNat = true ∧
    decode (s.advancePc.readReg f.target) = .valid j :=
  ⟨patching, 0x0BC43C01#32, ⟨15, 1, 0, 15, 1, 0⟩, .halt ⟨15, 0, 0, 0, 0, 0⟩, by decide⟩
theorem witness_StepEventIsTheFetch : ∃ (s : State) (e : StepEvent), s.stepEvent = some e :=
  ⟨patching, ⟨3, 0x0BC43C01#32, .store ⟨15, 1, 0, 15, 1, 0⟩⟩, by decide⟩
theorem witness_AccessesOfOneStep : ∃ (s t : State) (a : Nat) (v : Word), s.mem.wf = true ∧ step s = .next t ∧
    Access.write a v ∈ s.accesses := ⟨patching, _, 4, 0x03C00000#32, by decide, rfl, by decide⟩
theorem witness_AccessesOfOneStep_fetch : ∃ (s t u : State) (w v : Word) (i : Instr) (c : Nat),
    s.halted = false ∧ s.fault = none ∧ s.mem.read? s.pc.toNat = some w ∧ decode w = .valid i ∧
    t.halted = false ∧ t.fault = none ∧ t.mem.read? t.pc.toNat = some v ∧ decode v = .undeclared c ∧
    u.mem.words ≤ u.pc.toNat :=
  ⟨patching, start 15 15 0 0 0 (List.replicate 15 0 ++ [0xFFFFFFF9]), start 16 15 0 0 0 [], 0x0BC43C01#32,
    0xFFFFFFF9#32, .store ⟨15, 1, 0, 15, 1, 0⟩, 31, by decide⟩
theorem witness_AccessesOfOneStep_none : ∃ i : Instr, i.op ≠ .load ∧ i.op ≠ .store :=
  ⟨.halt ⟨15, 0, 0, 0, 0, 0⟩, by decide⟩
theorem witness_AccessesOfOneStep_other : ∃ (s t : State) (a : Nat), s.mem.wf = true ∧ step s = .next t ∧
    (Access.read a ∈ s.accesses) := ⟨start 0 15 0 0 0 [0x07C0000F], _, 15, by decide, rfl, by decide⟩
theorem witness_StepKeepsInvariant : ∃ s t : State, s.Inv ∧ step s = .next t :=
  ⟨patching, _, ⟨by decide, Or.inl (by decide), trivial⟩, rfl⟩
theorem witness_CommandsKeepMemoryAndFlag : ∃ (c : Command) (s t : State), s.mem.wf = true ∧ FlagLegal s.flag ∧
    command c s = .next t := ⟨.run 3 2, patching, _, by decide, Or.inl (by decide), rfl⟩
theorem witness_RunEndsForGood : ∃ (n : Nat) (s t : State), runLoop n s = .next t ∧
    (t.halted = true ∨ t.fault ≠ none) := ⟨2, patching, _, rfl, by decide⟩
theorem witness_RunEndsForGood_loop : ∃ s t u : State, s.halted = false ∧ s.fault = none ∧ t.halted = true ∧
    u.fault ≠ none := ⟨patching, mid.setHalted, mid.raise (.fetchOutOfRange 3), by decide⟩
theorem witness_ResetAndRunWrite : ∃ s t : State, s.fault ≠ none ∧ t.fault = none :=
  ⟨mid.raise (.fetchOutOfRange 3), mid, by decide⟩

end Sys2Proof.Tests
end

/-! Proofs about the ports of the machine (spec/00_scope.md section 6): the accesses of one step, read off one case
analysis of a step with its access list, and what the host's commands write. -/

namespace Sys2Proof.Machine

/-! ### Memory reads -/

@[simp] theorem Memory.valid_iff (m : Memory) (a : Nat) : m.valid a = true ↔ a < m.words := by
  simp [Memory.valid]

theorem Memory.read?_eq_none_iff (m : Memory) (a : Nat) : m.read? a = none ↔ m.words ≤ a := by
  simp [Memory.read?]

theorem Memory.lt_words_of_read? {m : Memory} {a : Nat} {w : Word} (h : m.read? a = some w) : a < m.words := by
  by_contra hn
  simp [(m.read?_eq_none_iff a).2 (by omega)] at h

/-- R52, R53: a read after a successful write to canonical memory. -/
theorem Memory.read?_of_write? {m m' : Memory} (hm : m.wf = true) {a : Nat} {v : Word}
    (h : m.write? a v = some m') (b : Nat) : m'.read? b = if b = a then some v else m.read? b := by
  obtain ⟨ha, rfl⟩ := Memory.write?_eq_some h
  obtain ⟨-, -, hcells⟩ := (Memory.wf_iff m).1 hm
  by_cases hb : b = a
  · simp [Memory.read?, Memory.lookup_update hcells, hb, ha]
  · simp [Memory.read?, Memory.valid, Memory.lookup_update hcells, hb]

/-! ### Effective addresses -/

/-- R154: the second operand as a sum of words. -/
theorem State.operand2_eq (s : State) (f : Fields) :
    s.operand2 f = s.readReg f.src2 + BitVec.ofInt 32 f.offset := by
  rw [State.operand2, u32, BitVec.ofInt_add, BitVec.ofInt_natCast, BitVec.ofNat_toNat, BitVec.setWidth_eq,
    BitVec.add_comm]

/-- R141: the wrapped sum of the signed readings is the sum of the words. -/
theorem u32_s32_add (a b : Word) : u32 (s32 a + s32 b) = a + b := by
  rw [u32, s32, s32, BitVec.ofInt_add, BitVec.ofInt_toInt, BitVec.ofInt_toInt]

/-- R200: the address of LOAD and of STORE is the sum of the operands. -/
theorem State.effectiveAddr_eq_sum (s : State) (f : Fields) {op : OpCode} (h : op = .load ∨ op = .store) :
    s.effectiveAddr op f = SumOfOperands s f := by
  have hsum : s.operand1 f + s.operand2 f = SumOfOperands s f := by
    rw [State.operand1, State.operand2_eq, SumOfOperands, BitVec.add_assoc]
  rcases h with rfl | rfl <;> exact (u32_s32_add _ _).trans hsum

/-- R235: the slot a STORE stores, read after the pc advance. -/
theorem State.readReg_advancePc_eq (s : State) (r : Reg) :
    s.advancePc.readReg r = if r = pcReg then s.pc + 1 else s.readReg r := by
  by_cases hr : r = pcReg
  · subst hr; rfl
  · rw [if_neg hr, State.readReg_advancePc s hr]

/-! ### The access list -/

theorem State.stopped_eq_false {s : State} (hh : s.halted = false) (hf : s.fault = none) : s.stopped = false := by
  simp [← Bool.not_eq_true, State.stopped_iff, hh, hf]

theorem State.dataAccess_load (s : State) (f : Fields) :
    s.dataAccess (.load f) =
      if s.satisfies f.cond = true ∧ (s.effectiveAddr .load f).toNat < s.mem.words then
        [.read (s.effectiveAddr .load f).toNat] else [] := by
  simp [State.dataAccess]

theorem State.dataAccess_store (s : State) (f : Fields) :
    s.dataAccess (.store f) =
      if s.satisfies f.cond = true ∧ (s.effectiveAddr .store f).toNat < s.mem.words then
        [.write (s.effectiveAddr .store f).toNat (s.advancePc.readReg f.target)] else [] := by
  simp [State.dataAccess]

theorem State.dataAccess_eq_nil (s : State) {i : Instr} (hl : i.op ≠ .load) (hs : i.op ≠ .store) :
    s.dataAccess i = [] := by
  cases i with
  | load f => exact absurd rfl hl
  | store f => exact absurd rfl hs
  | halt f | add f | sub f | mul f | div f => rfl

/-- R160: an instruction whose predicate is not satisfied makes no access of its own. -/
theorem State.dataAccess_of_not_satisfied (s : State) {i : Instr} (h : s.satisfies i.fields.cond = false) :
    s.dataAccess i = [] := by
  cases i with
  | load f => rw [State.dataAccess_load, if_neg]; simp_all [Instr.fields]
  | store f => rw [State.dataAccess_store, if_neg]; simp_all [Instr.fields]
  | halt f | add f | sub f | mul f | div f => rfl

theorem State.accesses_of_stopped {s : State} (h : s.stopped = true) : s.accesses = [] := by
  simp [State.accesses, State.fetch, h]

theorem State.accesses_of_read?_none {s : State} (h : s.mem.read? s.pc.toNat = none) : s.accesses = [] := by
  cases hs : s.stopped with
  | true => exact State.accesses_of_stopped hs
  | false => simp [State.accesses, State.fetch, hs, h]

theorem State.accesses_of_undeclared {s : State} {w : Word} {c : Nat} (hs : s.stopped = false)
    (hr : s.mem.read? s.pc.toNat = some w) (hd : decode w = .undeclared c) :
    s.accesses = [.fetch s.pc.toNat] := by
  simp [State.accesses, State.fetch, hs, hr, hd]

theorem State.accesses_of_valid {s : State} {w : Word} {i : Instr} (hs : s.stopped = false)
    (hr : s.mem.read? s.pc.toNat = some w) (hd : decode w = .valid i) :
    s.accesses = .fetch s.pc.toNat :: s.dataAccess i := by
  simp [State.accesses, State.fetch, hs, hr, hd]

/-! ### What the accesses do to memory -/

/-- R56: an instruction's own access with its effect on memory: none, one read, or the one write that makes the next
memory. -/
theorem exec_dataAccess_cases {i : Instr} {s t : State} (h : exec i s = .next t) :
    (s.dataAccess i = [] ∧ t.mem = s.mem) ∨
    (∃ a, a < s.mem.words ∧ s.dataAccess i = [.read a] ∧ t.mem = s.mem) ∨
    (∃ a v, s.dataAccess i = [.write a v] ∧ s.mem.write? a v = some t.mem) := by
  obtain ⟨hc, e⟩ | ⟨hc, ⟨f, rfl, e⟩ | ⟨f, rfl, e⟩ | ⟨f, rfl, e⟩ | ⟨f, hi, e⟩⟩ := exec_cases i s
  all_goals
    rw [e, Host.Outcome.next.injEq] at h
    subst h
  · exact .inl ⟨s.dataAccess_of_not_satisfied hc, rfl⟩
  · exact .inl ⟨rfl, rfl⟩
  · rw [State.dataAccess_load]
    obtain ⟨hv, e⟩ | ⟨v, hr, e⟩ := s.loadEffect_cases f
    · exact .inl ⟨if_neg (by simp [← Memory.valid_iff, hv]), by rw [e, State.raise_mem]⟩
    · have ha := Memory.lt_words_of_read? hr
      exact .inr (.inl ⟨_, ha, if_pos ⟨hc, ha⟩, by rw [e, State.writeReg_mem, State.advancePc_mem]⟩)
  · rw [State.dataAccess_store]
    obtain ⟨hv, e⟩ | ⟨m, hw, e⟩ := s.storeEffect_cases f
    · exact .inl ⟨if_neg (by simp [← Memory.valid_iff, hv]), by rw [e, State.raise_mem]⟩
    · exact .inr (.inr ⟨_, _, if_pos ⟨hc, (Memory.write?_eq_some hw).1⟩, by rw [e, State.setMem_mem, hw]⟩)
  · refine .inl ⟨?_, State.arith_mem ..⟩
    obtain rfl | rfl | rfl | rfl := hi <;> rfl

/-- R6, R56: the accesses of a step with its effect on memory: none, the fetch alone, the fetch and one read, or the
fetch and the one write that makes the next memory. -/
theorem step_accesses_cases {s t : State} (h : step s = .next t) :
    (s.accesses = [] ∧ t.mem = s.mem) ∨
    (s.pc.toNat < s.mem.words ∧
      ((s.accesses = [.fetch s.pc.toNat] ∧ t.mem = s.mem) ∨
       (∃ a, a < s.mem.words ∧ s.accesses = [.fetch s.pc.toNat, .read a] ∧ t.mem = s.mem) ∨
       (∃ a v, s.accesses = [.fetch s.pc.toNat, .write a v] ∧ s.mem.write? a v = some t.mem))) := by
  obtain ⟨hs, e⟩ | ⟨hs, hr, e⟩ | ⟨w, c, hs, hr, hd, e⟩ | ⟨w, i, hs, hr, hd, e⟩ := step_cases s <;> rw [e] at h
  · cases h; exact .inl ⟨State.accesses_of_stopped hs, rfl⟩
  · cases h; exact .inl ⟨State.accesses_of_read?_none hr, rfl⟩
  · cases h; exact .inr ⟨Memory.lt_words_of_read? hr, .inl ⟨State.accesses_of_undeclared hs hr hd, rfl⟩⟩
  · rw [State.accesses_of_valid hs hr hd]
    refine .inr ⟨Memory.lt_words_of_read? hr, ?_⟩
    obtain ⟨ed, hm⟩ | ⟨a, ha, ed, hm⟩ | ⟨a, v, ed, hw⟩ := exec_dataAccess_cases h <;> rw [ed]
    · exact .inl ⟨rfl, hm⟩
    · exact .inr (.inl ⟨a, ha, rfl, hm⟩)
    · exact .inr (.inr ⟨a, v, rfl, hw⟩)

/-- R6: at most two accesses, none but the first a fetch, all at valid addresses. -/
theorem step_accesses_bounds {s t : State} (h : step s = .next t) :
    s.accesses.length ≤ 2 ∧ (∀ x ∈ s.accesses.tail, ∀ a, x ≠ .fetch a) ∧
    ∀ x ∈ s.accesses, ∀ a v, x = .fetch a ∨ x = .read a ∨ x = .write a v → a < s.mem.words := by
  obtain ⟨e, -⟩ | ⟨hp, ⟨e, -⟩ | ⟨a, ha, e, -⟩ | ⟨a, v, e, hw⟩⟩ := step_accesses_cases h <;> rw [e]
  · simp
  · simp [hp]
  · simp [hp, ha]
  · simp [hp, (Memory.write?_eq_some hw).1]

/-- R56: memory after a step holds the word of a listed write, and every other word as before. -/
theorem step_accesses_mem {s t : State} (hm : s.mem.wf = true) (h : step s = .next t) :
    (∀ a v, Access.write a v ∈ s.accesses → t.mem.read? a = some v) ∧
    ∀ a, (∀ v, Access.write a v ∉ s.accesses) → t.mem.read? a = s.mem.read? a := by
  obtain ⟨e, ht⟩ | ⟨-, ⟨e, ht⟩ | ⟨b, -, e, ht⟩ | ⟨b, u, e, hw⟩⟩ := step_accesses_cases h <;> rw [e]
  · simp [ht]
  · simp [ht]
  · simp [ht]
  · have hread := Memory.read?_of_write? hm hw
    constructor
    · intro a v hmem
      obtain ⟨rfl, rfl⟩ : a = b ∧ v = u := by simpa using hmem
      rw [hread, if_pos rfl]
    · intro a hnone
      have hab : a ≠ b := by rintro rfl; exact hnone u (by simp)
      rw [hread, if_neg hab]

/-- Settles O55: the access list per case of the fetch, then the case analysis of a step with its accesses. -/
theorem accessesOfOneStep : Obligations.AccessesOfOneStep := by
  refine ⟨fun s w hh hf hr => ?_, fun s hp => ?_, fun s f => ⟨?_, ?_⟩, fun s i hl hs => s.dataAccess_eq_nil hl hs,
    fun s t hm h => ?_⟩
  · have hs := State.stopped_eq_false hh hf
    exact ⟨fun i hd => State.accesses_of_valid hs hr hd, fun c hd => State.accesses_of_undeclared hs hr hd⟩
  · exact State.accesses_of_read?_none ((s.mem.read?_eq_none_iff _).2 hp)
  · rw [State.dataAccess_load, s.effectiveAddr_eq_sum f (.inl rfl)]
  · rw [State.dataAccess_store, s.effectiveAddr_eq_sum f (.inr rfl), State.readReg_advancePc_eq]
    rfl
  · obtain ⟨hlen, htail, hvalid⟩ := step_accesses_bounds h
    obtain ⟨hwritten, hkept⟩ := step_accesses_mem hm h
    exact ⟨hlen, htail, hvalid, hwritten, hkept⟩

/-! ### The host's commands -/

/-- R40: every register slot holds 0 after power-on reset. -/
theorem State.readReg_reset (r : Reg) : State.reset.readReg r = 0 := by
  unfold State.readReg
  split
  · rfl
  · split
    · exact Vector.getElem_replicate _
    · rfl

/-- R162: the loop takes no step on a stopped machine. -/
theorem runLoop_of_stopped {s : State} (h : s.stopped = true) (n : Nat) : runLoop n s = .next s := by
  cases n with
  | zero => rfl
  | succ n => rw [runLoop, if_pos h]

@[simp] theorem command_run (a : Word) (n : Nat) (s : State) :
    command (.run a n) s = runLoop n (s.beginRun a) := rfl

/-- D10: `run` keeps the fault status, so a faulted machine stays stopped. -/
theorem State.stopped_beginRun_of_fault {s : State} (h : s.fault ≠ none) (a : Word) :
    (s.beginRun a).stopped = true :=
  (State.stopped_iff _).2 (.inr h)

/-- Settles O60: the reset values slot by slot, and a faulted machine is stopped after the two writes of `run`. -/
theorem resetAndRunWrite : Obligations.ResetAndRunWrite := by
  refine ⟨fun s => ⟨_, rfl, rfl, fun r => ?_, rfl, rfl, rfl, rfl⟩, fun _ _ => rfl,
    fun s a n _ => command_run a n s, fun s a n hf => ?_, fun _ => rfl⟩
  · rw [State.resetCommand, State.readReg_setMem, State.readReg_reset]
  · rw [command_run, runLoop_of_stopped (State.stopped_beginRun_of_fault hf a)]

end Sys2Proof.Machine

/-! Proofs about the register file, the condition flag and `halted` (spec/10_state.md): the writes of slot 0 and of slots
1 to 14, and, for the flag and for `halted`, which instruction a step that changes them has run. -/

namespace Sys2Proof.Machine

/-! ### The register file -/

/-- R21: slot 0 reads 0. -/
@[simp] theorem State.readReg_zeroReg (s : State) : s.readReg zeroReg = 0 := rfl

/-- R21: a write of slot 0 changes nothing. -/
@[simp] theorem State.writeReg_zeroReg (s : State) (v : Word) : s.writeReg zeroReg v = s := rfl

/-- R22: every slot but 0 and 15 has a cell. -/
theorem Reg.cell_bounds {r : Reg} (hz : r ≠ zeroReg) (hp : r ≠ pcReg) : 1 ≤ r.val ∧ r.val ≤ 14 := by
  have h0 : r.val ≠ 0 := fun e => hz (Fin.ext e)
  have h15 : r.val ≠ 15 := fun e => hp (Fin.ext e)
  omega

/-- R22: reading a slot that has a cell. -/
theorem State.readReg_cell (s : State) {r : Reg} (hp : r ≠ pcReg) (h : 1 ≤ r.val ∧ r.val ≤ 14) :
    s.readReg r = s.regs[r.val - 1] := by
  rw [State.readReg, if_neg hp, dif_pos h]

/-- R22: writing a slot that has a cell. -/
theorem State.writeReg_cell (s : State) {r : Reg} (hp : r ≠ pcReg) (h : 1 ≤ r.val ∧ r.val ≤ 14) (v : Word) :
    s.writeReg r v = { s with regs := s.regs.set (r.val - 1) v } := by
  rw [State.writeReg, if_neg hp, dif_pos h]

/-- R22: a second write of the same slot replaces the whole word. -/
theorem State.writeReg_writeReg_same (s : State) {r : Reg} (hz : r ≠ zeroReg) (hp : r ≠ pcReg) (v v' : Word) :
    (s.writeReg r v).writeReg r v' = s.writeReg r v' := by
  have h := Reg.cell_bounds hz hp
  simp only [State.writeReg_cell _ hp h, Vector.set_set]

/-- R22: writing back the word a slot reads changes nothing. -/
theorem State.writeReg_readReg_same (s : State) {r : Reg} (hz : r ≠ zeroReg) (hp : r ≠ pcReg) :
    s.writeReg r (s.readReg r) = s := by
  have h := Reg.cell_bounds hz hp
  rw [s.readReg_cell hp h, s.writeReg_cell hp h, Vector.set_getElem_self]

/-- Settles O23: `State.readReg_writeReg` for what is read, and the two laws of repeated writes. -/
theorem ordinarySlotsHoldWords : Obligations.OrdinarySlotsHoldWords := by
  intro s r v hz hp
  refine ⟨?_, fun q hq => ?_, s.writeReg_writeReg_same hz hp v, s.writeReg_readReg_same hz hp⟩
  · rw [State.readReg_writeReg, if_pos ⟨rfl, hz⟩]
  · rw [State.readReg_writeReg, if_neg fun e => hq e.1.symm]

/-! ### Satisfied instructions -/

/-- R180: a satisfied instruction of the four that write the flag has the arithmetic effect of its opcode. -/
theorem exec_of_writesFlag {i : Instr} {s : State} (hw : writesFlag i = true)
    (hc : s.satisfies i.fields.cond = true) : exec i s = .next (s.arith i.op i.fields) := by
  cases i with
  | add f | sub f | mul f | div f => exact if_pos hc
  | halt f | load f | store f => cases hw

theorem exec_load_of_satisfied {f : Fields} {s : State} (hc : s.satisfies f.cond = true) :
    exec (.load f) s = .next (s.loadEffect f) := if_pos hc

theorem exec_halt_of_satisfied {f : Fields} {s : State} (hc : s.satisfies f.cond = true) :
    exec (.halt f) s = .next s.advancePc.setHalted := if_pos hc

@[simp] theorem OpCode.op_instr (op : OpCode) (f : Fields) : (op.instr f).op = op := by cases op <;> rfl

@[simp] theorem OpCode.fields_instr (op : OpCode) (f : Fields) : (op.instr f).fields = f := by cases op <;> rfl

/-- R28: the four opcodes that write the flag are ADD, SUB, MUL and DIV. -/
theorem writesFlag_instr {op : OpCode} (h : op ∈ [OpCode.add, .sub, .mul, .div]) (f : Fields) :
    writesFlag (op.instr f) = true := by
  cases op with
  | add | sub | mul | div => rfl
  | halt | load | store => simp at h

/-! ### Target 0 -/

/-- R21, R180: the arithmetic effect with target 0 is the pc advance and the flag. -/
theorem State.arith_of_target_zero (s : State) (op : OpCode) {f : Fields} (hf : f.target = zeroReg) :
    s.arith op f = s.advancePc.setFlag (s.aluOut op f).2 := by
  rw [State.arith, hf, State.writeReg_zeroReg]

/-- R21, R201: the effect of LOAD with target 0 at a valid address is the pc advance. -/
theorem State.loadEffect_of_target_zero (s : State) {f : Fields} (hf : f.target = zeroReg)
    (hv : s.mem.valid (s.effectiveAddr .load f).toNat = true) : s.loadEffect f = s.advancePc := by
  obtain ⟨hn, -⟩ | ⟨v, -, e⟩ := s.loadEffect_cases f
  · rw [hn] at hv; cases hv
  · rw [e, hf, State.writeReg_zeroReg]

/-- Settles O21: the satisfied effects, with the write of slot 0 dropped. -/
theorem slotZeroDiscardsWrites : Obligations.SlotZeroDiscardsWrites := by
  refine ⟨State.readReg_zeroReg, State.writeReg_zeroReg, fun op f s hf hc hop => ?_, fun f s hf hc hv => ⟨?_, ?_⟩⟩
  · have hexec := exec_of_writesFlag (s := s) (writesFlag_instr hop f) (by rwa [OpCode.fields_instr])
    rw [OpCode.op_instr, OpCode.fields_instr, s.arith_of_target_zero op hf] at hexec
    exact hexec
  · rw [State.dataAccess_load, if_pos ⟨hc, (s.mem.valid_iff _).1 hv⟩]
  · rw [exec_load_of_satisfied hc, s.loadEffect_of_target_zero hf hv]
    rfl

/-! ### What a step that changes a piece of state has run -/

/-- R151: a step of a stopped machine changes nothing. -/
theorem step_of_stopped {s : State} (h : s.stopped = true) : step s = .next s := by
  simp [step, State.fetch, h]

/-- A step that changes something no fault touches (`g` of the state) has run an instruction. -/
theorem step_runs_of_changed {α : Type} (g : State → α) (hg : ∀ (s : State) (f : Fault), g (s.raise f) = g s)
    {s t : State} (h : step s = .next t) (hne : g t ≠ g s) :
    ∃ w i, s.mem.read? s.pc.toNat = some w ∧ decode w = .valid i ∧ exec i s = .next t := by
  obtain ⟨-, e⟩ | ⟨-, -, e⟩ | ⟨w, c, -, -, -, e⟩ | ⟨w, i, -, hr, hd, e⟩ := step_cases s <;> rw [e] at h
  · cases h; exact absurd rfl hne
  · cases h; exact absurd (hg _ _) hne
  · cases h; exact absurd (hg _ _) hne
  · exact ⟨w, i, hr, hd, h⟩

@[simp] theorem State.loadEffect_flag (s : State) (f : Fields) : (s.loadEffect f).flag = s.flag := by
  obtain ⟨-, e⟩ | ⟨v, -, e⟩ := s.loadEffect_cases f <;> simp [e]

@[simp] theorem State.loadEffect_halted (s : State) (f : Fields) : (s.loadEffect f).halted = s.halted := by
  obtain ⟨-, e⟩ | ⟨v, -, e⟩ := s.loadEffect_cases f <;> simp [e]

@[simp] theorem State.storeEffect_flag (s : State) (f : Fields) : (s.storeEffect f).flag = s.flag := by
  obtain ⟨-, e⟩ | ⟨m, -, e⟩ := s.storeEffect_cases f <;> simp [e]

@[simp] theorem State.storeEffect_halted (s : State) (f : Fields) : (s.storeEffect f).halted = s.halted := by
  obtain ⟨-, e⟩ | ⟨m, -, e⟩ := s.storeEffect_cases f <;> simp [e]

/-! ### The condition flag -/

/-- R28: an instruction keeps the flag unless it is one of the four that write it, satisfied. -/
theorem exec_flag_cases {i : Instr} {s t : State} (h : exec i s = .next t) :
    t.flag = s.flag ∨ (writesFlag i = true ∧ s.satisfies i.fields.cond = true) := by
  obtain ⟨-, e⟩ | ⟨hc, ⟨f, -, e⟩ | ⟨f, -, e⟩ | ⟨f, -, e⟩ | ⟨f, hi, -⟩⟩ := exec_cases i s
  case inr.inr.inr.inr =>
    refine .inr ⟨?_, hc⟩
    obtain rfl | rfl | rfl | rfl := hi <;> rfl
  all_goals
    rw [e, Host.Outcome.next.injEq] at h
    subst h
    simp

/-- Settles O47: the arithmetic effect's flag, and the case analysis of what keeps the flag. -/
theorem flagWrittenOnlyByArithmetic : Obligations.FlagWrittenOnlyByArithmetic := by
  refine ⟨fun i s hw hc => ⟨_, exec_of_writesFlag hw hc, s.arith_flag i.op i.fields⟩, fun i s t hn h => ?_,
    fun s t h hne => ?_⟩
  · obtain hkept | ⟨hw, hc⟩ := exec_flag_cases h
    · exact hkept
    · simp [hw, hc] at hn
  · obtain ⟨w, i, hr, hd, hexec⟩ := step_runs_of_changed State.flag State.raise_flag h hne
    obtain ⟨hw, hc⟩ := (exec_flag_cases hexec).resolve_left hne
    exact ⟨w, i, hr, hd, hw, hc, hexec⟩

/-! ### The halted flag -/

/-- R31: an instruction keeps `halted` unless it is a satisfied HALT, which sets it. -/
theorem exec_halted_cases {i : Instr} {s t : State} (h : exec i s = .next t) :
    t.halted = s.halted ∨ (t.halted = true ∧ ∃ f, i = .halt f ∧ s.satisfies f.cond = true) := by
  obtain ⟨-, e⟩ | ⟨hc, ⟨f, hi, e⟩ | ⟨f, -, e⟩ | ⟨f, -, e⟩ | ⟨f, -, e⟩⟩ := exec_cases i s
  all_goals
    rw [e, Host.Outcome.next.injEq] at h
    subst h
  case inr.inl => subst hi; exact .inr ⟨rfl, f, rfl, hc⟩
  all_goals simp

/-- R345: the loader binds another memory and nothing else. -/
theorem command_load_eq_next {image : List Int} {s t : State} (h : command (.load image) s = .next t) :
    ∃ m, s.mem.load? image = some m ∧ t = s.setMem m := by
  cases hm : s.mem.load? image with
  | none => simp [command, hm] at h
  | some m => exact ⟨m, rfl, by simpa [command, hm] using h.symm⟩

/-- Settles O48: the case analysis of what keeps `halted`, for a step and for the loader. -/
theorem haltedSetOnlyByHalt : Obligations.HaltedSetOnlyByHalt := by
  refine ⟨fun f s hc => ⟨_, exec_halt_of_satisfied hc, rfl⟩, fun image s t h => ?_, fun s t h hne => ?_,
    fun _ _ => ⟨rfl, rfl⟩, fun s hh => step_of_stopped ((State.stopped_iff s).2 (.inl hh))⟩
  · obtain ⟨m, -, rfl⟩ := command_load_eq_next h
    rfl
  · obtain ⟨w, i, hr, hd, hexec⟩ := step_runs_of_changed State.halted State.raise_halted h hne
    obtain ⟨hset, f, rfl, hc⟩ := (exec_halted_cases hexec).resolve_left hne
    exact ⟨hset, w, f, hr, hd, hc⟩

end Sys2Proof.Machine

/-! Proofs about the codec of bit fields, the decoder and the encoder (spec/30_encoding.md). `extract` and `insert` are
described bit by bit; a word is known by the seven fields of the layout; what the decoder reads in an encoded word, and
what the encoder makes of a decoded one, is then said field by field. -/

namespace Sys2Proof

/-! ### The codec of one field -/

/-- R80. -/
theorem BitField.low_add_width (F : BitField) : F.low + F.width = F.high + 1 := by
  have := F.low_le_high
  rw [BitField.width]
  omega

/-- R82: the shift is a quotient and the mask a remainder. -/
theorem BitField.extract_eq_div_mod (F : BitField) (w : Word) :
    F.extract w = w.toNat / 2 ^ F.low % 2 ^ F.width := by
  rw [BitField.extract, BitField.mask, Nat.and_two_pow_sub_one_eq_mod, Nat.shiftRight_eq_div_pow]

theorem BitField.extract_lt (F : BitField) (w : Word) : F.extract w < 2 ^ F.width := by
  rw [F.extract_eq_div_mod]
  exact Nat.mod_lt _ (Nat.two_pow_pos _)

/-- R82: bit `k` of the field is bit `low + k` of the word. -/
theorem BitField.testBit_extract (F : BitField) (w : Word) (k : Nat) :
    (F.extract w).testBit k = (decide (k < F.width) && w.getLsbD (F.low + k)) := by
  rw [F.extract_eq_div_mod, Nat.testBit_mod_two_pow, ← Nat.shiftRight_eq_div_pow, Nat.testBit_shiftRight,
    BitVec.testBit_toNat]

/-- R82: the field (0, 31) is the whole word. -/
theorem BitField.extract_of_full {F : BitField} (hl : F.low = 0) (hh : F.high = 31) (w : Word) :
    F.extract w = w.toNat := by
  have hw : F.width = 32 := by rw [BitField.width, hl, hh]
  rw [F.extract_eq_div_mod, hl, hw, Nat.pow_zero, Nat.div_one, Nat.mod_eq_of_lt w.isLt]

/-- Settles O1: quotient and remainder for the value, `testBit` for the bits. -/
theorem extractReadsFieldBits : Obligations.ExtractReadsFieldBits := fun F w =>
  ⟨F.extract_eq_div_mod w, F.extract_lt w, F.testBit_extract w, fun hl hh => BitField.extract_of_full hl hh w⟩

/-- R84: the remainder inserted is a natural number. -/
theorem BitField.emod_eq_toNat (F : BitField) (v : Int) : v % 2 ^ F.width = ((v % 2 ^ F.width).toNat : Int) :=
  (Int.toNat_of_nonneg (Int.emod_nonneg v (by positivity))).symm

theorem BitField.toNat_emod_lt (F : BitField) (v : Int) : (v % 2 ^ F.width).toNat < 2 ^ F.width := by
  have h : v % 2 ^ F.width < 2 ^ F.width := Int.emod_lt_of_pos v (by positivity)
  rw [F.emod_eq_toNat] at h
  exact_mod_cast h

/-- R80: the shifted mask has the bits `low` to `high`. -/
theorem BitField.getLsbD_mask (F : BitField) {k : Nat} (hk : k < 32) :
    (BitVec.ofNat 32 F.mask <<< F.low).getLsbD k = decide (F.low ≤ k ∧ k ≤ F.high) := by
  have hw := F.low_add_width
  rw [BitVec.getLsbD_shiftLeft, BitVec.getLsbD_ofNat, BitField.mask, Nat.testBit_two_pow_sub_one]
  grind

/-- R84: bit `k` of the shifted value. -/
theorem BitField.getLsbD_value (F : BitField) (v : Int) {k : Nat} (hk : k < 32) :
    (u32 (v % 2 ^ F.width) <<< F.low).getLsbD k =
      (decide (F.low ≤ k ∧ k ≤ F.high) && (v % 2 ^ F.width).toNat.testBit (k - F.low)) := by
  have hw := F.low_add_width
  have hlt := F.toNat_emod_lt v
  rw [BitVec.getLsbD_shiftLeft, F.emod_eq_toNat, u32, BitVec.ofInt_natCast, BitVec.getLsbD_ofNat, Int.toNat_natCast]
  by_cases hhigh : k ≤ F.high
  · have : k - F.low < 32 := by omega
    grind
  · have hbit : (v % 2 ^ F.width).toNat.testBit (k - F.low) = false :=
      Nat.testBit_lt_two_pow (hlt.trans_le (Nat.pow_le_pow_right (by omega) (by omega)))
    simp [hbit]

/-- R84. -/
theorem BitField.getLsbD_insert (F : BitField) (v : Int) (w : Word) {k : Nat} (hk : k < 32) :
    (F.insert v w).getLsbD k =
      if F.low ≤ k ∧ k ≤ F.high then (v % 2 ^ F.width).toNat.testBit (k - F.low) else w.getLsbD k := by
  rw [BitField.insert, BitVec.getLsbD_or, BitVec.getLsbD_and, BitVec.getLsbD_not, F.getLsbD_mask hk,
    F.getLsbD_value v hk]
  by_cases h : F.low ≤ k ∧ k ≤ F.high <;> simp [h, hk]

/-- Settles O2: the mask clears the bits `low` to `high`, and the shifted value has no others. -/
theorem insertReplacesFieldBits : Obligations.InsertReplacesFieldBits := fun F v w _ hk => F.getLsbD_insert v w hk

/-- R84: only the value modulo `2 ^ width` is inserted. -/
theorem BitField.insert_congr (F : BitField) {v v' : Int} (h : v % 2 ^ F.width = v' % 2 ^ F.width) (w : Word) :
    F.insert v w = F.insert v' w := by
  rw [BitField.insert, h, ← BitField.insert]

/-- Two words with the same bits in a field have the same field. -/
theorem BitField.extract_congr {F : BitField} {w w' : Word}
    (h : ∀ k, F.low ≤ k → k ≤ F.high → w.getLsbD k = w'.getLsbD k) : F.extract w = F.extract w' := by
  refine Nat.eq_of_testBit_eq fun k => ?_
  rw [F.testBit_extract, F.testBit_extract]
  by_cases hk : k < F.width
  · have hw := F.low_add_width
    rw [h (F.low + k) (by omega) (by omega)]
  · simp [hk]

/-- Two words with the same field have the same bits there. -/
theorem BitField.getLsbD_eq_of_extract_eq {F : BitField} {w w' : Word} (h : F.extract w = F.extract w') {k : Nat}
    (hl : F.low ≤ k) (hh : k ≤ F.high) : w.getLsbD k = w'.getLsbD k := by
  have hw := F.low_add_width
  have hbit := congrArg (Nat.testBit · (k - F.low)) h
  have hlt : k - F.low < F.width := by omega
  simpa [F.testBit_extract, hlt, Nat.add_sub_cancel' hl] using hbit

/-- R86: a field reads the value inserted, modulo `2 ^ width`. -/
theorem BitField.extract_insert (F : BitField) (v : Int) (w : Word) :
    F.extract (F.insert v w) = (v % 2 ^ F.width).toNat := by
  refine Nat.eq_of_testBit_eq fun k => ?_
  have hw := F.low_add_width
  have hhigh := F.high_le
  rw [F.testBit_extract]
  by_cases hk : k < F.width
  · rw [F.getLsbD_insert v w (by omega), if_pos (by omega), Nat.add_sub_cancel_left, decide_eq_true hk, Bool.true_and]
  · have hbit : (v % 2 ^ F.width).toNat.testBit k = false :=
      Nat.testBit_lt_two_pow ((F.toNat_emod_lt v).trans_le (Nat.pow_le_pow_right (by omega) (by omega)))
    rw [decide_eq_false hk, hbit, Bool.false_and]

/-- R86: a field reads the number inserted, when it fits. -/
theorem BitField.extract_insert_natCast (F : BitField) {n : Nat} (hn : n < 2 ^ F.width) (w : Word) :
    F.extract (F.insert n w) = n := by
  have hmod : (n : Int) % 2 ^ F.width = n := Int.emod_eq_of_lt (by positivity) (by exact_mod_cast hn)
  rw [F.extract_insert, hmod, Int.toNat_natCast]

/-- R86: an insert leaves a disjoint field as it was. -/
theorem BitField.extract_insert_of_disjoint {F G : BitField} (h : F.high < G.low ∨ G.high < F.low) (v : Int)
    (w : Word) : G.extract (F.insert v w) = G.extract w := by
  refine BitField.extract_congr fun k hl hh => ?_
  have hhigh := G.high_le
  rw [F.getLsbD_insert v w (by omega), if_neg (by omega)]

@[simp] theorem BitField.extract_zero (F : BitField) : F.extract 0 = 0 := by
  simp [F.extract_eq_div_mod]

/-! ### Sign extension -/

/-- R85: only the low `n` bits count. -/
theorem signExtend_congr {v v' : Int} {n : Nat} (h : v % 2 ^ n = v' % 2 ^ n) : signExtend v n = signExtend v' n := by
  rw [signExtend, h, ← signExtend]

theorem signExtend_emod_two_pow (v : Int) (n : Nat) : signExtend (v % 2 ^ n) n = signExtend v n :=
  signExtend_congr (Int.emod_emod _ _)

/-- R87: sign extension keeps the value modulo `2 ^ n`. -/
theorem emod_signExtend (v : Int) (n : Nat) : signExtend v n % 2 ^ n = v % 2 ^ n := by
  simp only [signExtend]
  split
  · rw [Int.sub_emod_right, Int.emod_emod]
  · exact Int.emod_emod _ _

/-- R85: a value that fits its signed width is its own sign extension. -/
theorem signExtend_of_fits {v : Int} {n : Nat} (hl : -2 ^ n ≤ v) (hh : v < 2 ^ n) : signExtend v (n + 1) = v := by
  have hpow : (2 : Int) ^ (n + 1) = 2 * 2 ^ n := Int.pow_succ' 2 n
  simp only [signExtend, hpow, Nat.add_sub_cancel]
  by_cases hv : 0 ≤ v
  · rw [Int.emod_eq_of_lt hv (by omega), if_neg (by omega)]
  · rw [← Int.add_emod_right, Int.emod_eq_of_lt (by omega) (by omega), if_pos (by omega), Int.add_sub_cancel]

/-- R83, R86: inserting a field's signed reading inserts the field. -/
theorem BitField.extractSigned_emod (F : BitField) (w : Word) :
    F.extractSigned w % 2 ^ F.width = F.extract w := by
  rw [BitField.extractSigned, emod_signExtend]
  exact Int.emod_eq_of_lt (by positivity) (by exact_mod_cast F.extract_lt w)

/-! ### The layout -/

@[simp] theorem Config.js32_layout : Config.js32.layout = Layout.js32 := rfl

@[simp] theorem Config.js32_opcodeCode (op : OpCode) : Config.js32.opcodeCode op = op.code := rfl

/-- R91: the seven fields cover the word, so they determine it. -/
theorem Layout.js32_ext {w w' : Word}
    (hreserved : Layout.js32.reserved.extract w = Layout.js32.reserved.extract w')
    (hop : Layout.js32.op.extract w = Layout.js32.op.extract w')
    (hcond : Layout.js32.cond.extract w = Layout.js32.cond.extract w')
    (htarget : Layout.js32.target.extract w = Layout.js32.target.extract w')
    (hsrc1 : Layout.js32.src1.extract w = Layout.js32.src1.extract w')
    (hsrc2 : Layout.js32.src2.extract w = Layout.js32.src2.extract w')
    (hoffset : Layout.js32.offset.extract w = Layout.js32.offset.extract w') : w = w' := by
  refine BitVec.eq_of_getLsbD_eq fun k hk => ?_
  obtain h | h | h | h | h | h | h : (31 ≤ k ∧ k ≤ 31) ∨ (26 ≤ k ∧ k ≤ 30) ∨ (22 ≤ k ∧ k ≤ 25) ∨
      (18 ≤ k ∧ k ≤ 21) ∨ (14 ≤ k ∧ k ≤ 17) ∨ (10 ≤ k ∧ k ≤ 13) ∨ (0 ≤ k ∧ k ≤ 9) := by omega
  · exact BitField.getLsbD_eq_of_extract_eq hreserved h.1 h.2
  · exact BitField.getLsbD_eq_of_extract_eq hop h.1 h.2
  · exact BitField.getLsbD_eq_of_extract_eq hcond h.1 h.2
  · exact BitField.getLsbD_eq_of_extract_eq htarget h.1 h.2
  · exact BitField.getLsbD_eq_of_extract_eq hsrc1 h.1 h.2
  · exact BitField.getLsbD_eq_of_extract_eq hsrc2 h.1 h.2
  · exact BitField.getLsbD_eq_of_extract_eq hoffset h.1 h.2

/-! ### The decoder -/

/-- R102: an opcode is found by its code, and by no other. -/
@[simp] theorem opOfCode_eq_some_iff (c : Nat) (op : OpCode) : opOfCode c = some op ↔ op.code = c := by
  constructor
  · intro h
    simpa using List.find?_some h
  · rintro rfl
    cases op <;> rfl

/-- An instruction is its opcode with its fields. -/
@[simp] theorem Instr.instr_op_fields (i : Instr) : i.op.instr i.fields = i := by cases i <;> rfl

/-- R102: a word with a declared opcode decodes to that opcode with the word's fields. -/
theorem decode_of_code {w : Word} {op : OpCode} (h : op.code = Layout.js32.op.extract w) :
    decode w = .valid (op.instr (decodeFields w)) := by
  rw [decode, Config.js32_layout, (opOfCode_eq_some_iff _ op).2 h]

/-- R102: the words that decode to an instruction are those with its code and its fields. -/
theorem decode_eq_valid_iff (w : Word) (i : Instr) :
    decode w = .valid i ↔ i.op.code = Layout.js32.op.extract w ∧ i.fields = decodeFields w := by
  constructor
  · intro h
    cases hop : opOfCode (Layout.js32.op.extract w) with
    | none => simp [decode, hop] at h
    | some op =>
      have hcode := (opOfCode_eq_some_iff _ op).1 hop
      rw [decode_of_code hcode, Decoded.valid.injEq] at h
      subst h
      exact ⟨by rwa [Machine.OpCode.op_instr], Machine.OpCode.fields_instr _ _⟩
  · rintro ⟨hcode, hfields⟩
    rw [decode_of_code hcode, ← hfields, Instr.instr_op_fields]

/-- R103: the decoder does not look at bit 31. -/
theorem decode_congr {w w' : Word} (h : ∀ k, k < 31 → w.getLsbD k = w'.getLsbD k) : decode w = decode w' := by
  have hextract : ∀ F : BitField, F.high < 31 → F.extract w = F.extract w' := fun F hF =>
    BitField.extract_congr fun k _ hk => h k (by omega)
  have hfields : decodeFields w = decodeFields w' := by
    simp (disch := decide) only [decodeFields, Config.js32_layout, BitField.extractSigned, hextract]
  rw [decode, decode, hfields, Config.js32_layout, hextract _ (by decide)]

/-! ### The encoder -/

theorem OpCode.code_lt (op : OpCode) : op.code < 2 ^ 5 := by cases op <;> decide

/-- R100: no field is inserted at bit 31. -/
@[simp] theorem extract_reserved_encode (i : Instr) : Layout.js32.reserved.extract (encode i) = 0 := by
  simp (disch := decide) only [encode, Config.js32_layout, BitField.extract_insert_of_disjoint,
    BitField.extract_zero]

@[simp] theorem extract_op_encode (i : Instr) : Layout.js32.op.extract (encode i) = i.op.code := by
  simp (disch := decide) only [encode, Config.js32_layout, BitField.extract_insert_of_disjoint]
  exact BitField.extract_insert_natCast _ i.op.code_lt _

@[simp] theorem extract_cond_encode (i : Instr) : Layout.js32.cond.extract (encode i) = i.fields.cond.toNat := by
  simp (disch := decide) only [encode, Config.js32_layout, BitField.extract_insert_of_disjoint]
  exact BitField.extract_insert_natCast _ i.fields.cond.isLt _

@[simp] theorem extract_target_encode (i : Instr) : Layout.js32.target.extract (encode i) = i.fields.target.val := by
  simp (disch := decide) only [encode, Config.js32_layout, BitField.extract_insert_of_disjoint]
  exact BitField.extract_insert_natCast _ i.fields.target.isLt _

@[simp] theorem extract_src1_encode (i : Instr) : Layout.js32.src1.extract (encode i) = i.fields.src1.val := by
  simp (disch := decide) only [encode, Config.js32_layout, BitField.extract_insert_of_disjoint]
  exact BitField.extract_insert_natCast _ i.fields.src1.isLt _

@[simp] theorem extract_src2_encode (i : Instr) : Layout.js32.src2.extract (encode i) = i.fields.src2.val := by
  simp (disch := decide) only [encode, Config.js32_layout, BitField.extract_insert_of_disjoint]
  exact BitField.extract_insert_natCast _ i.fields.src2.isLt _

/-- R101: the offset is inserted modulo 1024. -/
@[simp] theorem extract_offset_encode (i : Instr) :
    Layout.js32.offset.extract (encode i) = (i.fields.offset % 2 ^ 10).toNat :=
  BitField.extract_insert _ _ _

/-- R101: offsets that agree modulo 1024 are encoded alike. -/
theorem encode_instr_congr_offset (op : OpCode) (f : Fields) {o : Int} (h : o % 2 ^ 10 = f.offset % 2 ^ 10) :
    encode (op.instr { f with offset := o }) = encode (op.instr f) := by
  simp only [encode, Machine.OpCode.op_instr, Machine.OpCode.fields_instr]
  exact BitField.insert_congr _ h _

/-- R102, R105: the fields of an encoded word. -/
theorem decodeFields_encode (i : Instr) :
    decodeFields (encode i) = { i.fields with offset := signExtend i.fields.offset 10, reserved := 0 } := by
  have hoffset : Layout.js32.offset.extractSigned (encode i) = signExtend i.fields.offset 10 := by
    rw [BitField.extractSigned, extract_offset_encode,
      Int.toNat_of_nonneg (Int.emod_nonneg _ (by decide))]
    exact signExtend_emod_two_pow _ 10
  simp [decodeFields, hoffset]

/-- R105: decoding an encoded instruction gives it back, with the offset masked and the reserved bit 0. -/
theorem decode_encode (i : Instr) :
    decode (encode i) =
      .valid (i.op.instr { i.fields with offset := signExtend i.fields.offset 10, reserved := 0 }) := by
  rw [decode_of_code (extract_op_encode i).symm, decodeFields_encode]

/-- Settles O8: only the offset modulo 1024 is encoded, and its sign extension is decoded. -/
theorem offsetIsMasked : Obligations.OffsetIsMasked := by
  refine fun op f k => ⟨encode_instr_congr_offset op f (Int.add_mul_emod_self_left _ 1024 k), ?_, fun hl hh => ?_⟩
  · rw [decode_encode, Machine.OpCode.op_instr, Machine.OpCode.fields_instr]
  · exact signExtend_of_fits (n := 9) hl (by omega)

/-! ### The reserved bit -/

/-- R103: the word with bit 31 cleared. -/
theorem getLsbD_clearReserved (w : Word) (k : Nat) :
    (w &&& 0x7FFFFFFF#32).getLsbD k = (decide (k < 31) && w.getLsbD k) := by
  have hmask : (0x7FFFFFFF : Nat).testBit k = decide (k < 31) := Nat.testBit_two_pow_sub_one 31 k
  rw [BitVec.getLsbD_and, BitVec.getLsbD_ofNat, hmask]
  grind

/-- R103: the word with bit 31 set. -/
theorem getLsbD_setReserved (w : Word) {k : Nat} (hk : k < 31) :
    (w ||| 0x80000000#32).getLsbD k = w.getLsbD k := by
  have hbit : (0x80000000 : Nat).testBit k = decide (31 = k) := Nat.testBit_two_pow (n := 31)
  rw [BitVec.getLsbD_or, BitVec.getLsbD_ofNat, hbit]
  grind

theorem decode_clearReserved (w : Word) : decode (w &&& 0x7FFFFFFF#32) = decode w :=
  decode_congr fun k hk => by rw [getLsbD_clearReserved, decide_eq_true hk, Bool.true_and]

theorem decode_setReserved (w : Word) : decode (w ||| 0x80000000#32) = decode w :=
  decode_congr fun _ hk => getLsbD_setReserved w hk

/-- R100, R103: clearing bit 31 leaves the six encoded fields. -/
theorem extract_clearReserved {F : BitField} (hF : F.high < 31) (w : Word) :
    F.extract (w &&& 0x7FFFFFFF#32) = F.extract w :=
  BitField.extract_congr fun k _ hk => by
    rw [getLsbD_clearReserved, decide_eq_true (hk.trans_lt hF), Bool.true_and]

theorem extract_reserved_clearReserved (w : Word) : Layout.js32.reserved.extract (w &&& 0x7FFFFFFF#32) = 0 := by
  rw [← Layout.js32.reserved.extract_zero]
  refine BitField.extract_congr fun k hl _ => ?_
  have h31 : ¬k < 31 := Nat.not_lt.2 hl
  rw [getLsbD_clearReserved, decide_eq_false h31, Bool.false_and]
  exact BitVec.getLsbD_zero.symm

/-- R103: re-encoding a decoded word clears bit 31 and nothing else. -/
theorem encode_of_decode {w : Word} {i : Instr} (h : decode w = .valid i) : encode i = w &&& 0x7FFFFFFF#32 := by
  obtain ⟨hcode, hfields⟩ := (decode_eq_valid_iff w i).1 h
  have hoffset := Layout.js32.offset.extractSigned_emod w
  apply Layout.js32_ext
  · rw [extract_reserved_encode, extract_reserved_clearReserved]
  all_goals rw [extract_clearReserved (by decide)]
  · rw [extract_op_encode, hcode]
  · rw [extract_cond_encode, hfields]
    exact Nat.mod_eq_of_lt (Layout.js32.cond.extract_lt w)
  · rw [extract_target_encode, hfields]
    exact Nat.mod_eq_of_lt (Layout.js32.target.extract_lt w)
  · rw [extract_src1_encode, hfields]
    exact Nat.mod_eq_of_lt (Layout.js32.src1.extract_lt w)
  · rw [extract_src2_encode, hfields]
    exact Nat.mod_eq_of_lt (Layout.js32.src2.extract_lt w)
  · rw [extract_offset_encode, hfields]
    exact (congrArg Int.toNat hoffset).trans (Int.toNat_natCast _)

end Sys2Proof

namespace Sys2Proof.Machine

/-- R150: a running machine executes the instruction that the word at the pc decodes to. -/
theorem step_of_valid {s : State} {w : Word} {i : Instr} (hs : s.stopped = false)
    (hr : s.mem.read? s.pc.toNat = some w) (hd : decode w = .valid i) : step s = exec i s := by
  simp [step, State.fetch, hs, hr, hd]

/-- Settles O7: the decoder reads bits 0 to 30 alone, so the step finds the same instruction. -/
theorem reservedBitIsIgnored : Obligations.ReservedBitIsIgnored := by
  refine fun w => ⟨by rw [decode_setReserved, decode_clearReserved], fun i hd => ?_⟩
  have hclear : decode (w &&& 0x7FFFFFFF#32) = .valid i := by rw [decode_clearReserved, hd]
  have hset : decode (w ||| 0x80000000#32) = .valid i := by rw [decode_setReserved, hd]
  refine ⟨encode_of_decode hd, hclear, fun s hh hf hr => ?_⟩
  have hs := State.stopped_eq_false hh hf
  exact hr.elim (step_of_valid hs · hclear) (step_of_valid hs · hset)

end Sys2Proof.Machine

/-! Proofs about the ALU and the engine (spec/40_engine_alu.md): what the ALU answers per opcode, what an instruction
does when its predicate is not satisfied, and the loop of `run`. -/

namespace Sys2Proof.Machine

/-! ### The ALU's results -/

/-- R141: the wrapped difference of the signed readings is the difference of the words. -/
theorem u32_s32_sub (a b : Word) : u32 (s32 a - s32 b) = a - b := by
  rw [u32, s32, s32, Int.sub_eq_add_neg, BitVec.ofInt_add, BitVec.ofInt_neg, BitVec.ofInt_toInt, BitVec.ofInt_toInt,
    BitVec.sub_eq_add_neg]

/-- R141: the wrapped product of the signed readings is the product of the words. -/
theorem u32_s32_mul (a b : Word) : u32 (s32 a * s32 b) = a * b := by
  rw [u32, s32, s32, BitVec.ofInt_mul, BitVec.ofInt_toInt, BitVec.ofInt_toInt]

/-- The low word of a sign-extended word is the word. -/
theorem setWidth_signExtend (a : Word) : (a.signExtend 64).setWidth 32 = a := by
  ext k hk
  rw [BitVec.getElem_setWidth, BitVec.getLsbD_signExtend, if_pos hk, BitVec.getLsbD_eq_getElem hk,
    decide_eq_true (by omega), Bool.true_and]

/-- R142: the low word of the 64-bit signed product is the product of the words. -/
theorem truncate_mul_signExtend (a b : Word) : (a.signExtend 64 * b.signExtend 64).truncate 32 = a * b := by
  rw [BitVec.truncate_eq_setWidth, BitVec.setWidth_mul _ _ (by decide), setWidth_signExtend, setWidth_signExtend]

/-- Settles O17: the ALU works on signed readings, and wrapping commutes with sum, difference and product. -/
theorem aluResultsAreLowWords : Obligations.AluResultsAreLowWords :=
  ⟨fun _ _ => ⟨rfl, rfl⟩, fun a b => ⟨u32_s32_add a b, rfl, rfl, u32_s32_sub a b,
    (u32_s32_mul a b).trans (truncate_mul_signExtend a b).symm, rfl⟩⟩

/-! ### Division -/

/-- R143: the greatest integer not above the rational quotient is the floor division of the integers. -/
theorem floor_div_eq_fdiv (a b : Int) : ⌊(a : ℚ) / (b : ℚ)⌋ = a.fdiv b := by
  obtain ⟨n, rfl | rfl⟩ := b.eq_nat_or_neg
  · rw [Int.cast_natCast, Rat.floor_intCast_div_natCast, Int.fdiv_eq_ediv_of_nonneg _ (Int.natCast_nonneg n)]
  · have hneg : (a : ℚ) / ((-(n : Int) : Int) : ℚ) = ((-a : Int) : ℚ) / (n : ℚ) := by
      push_cast
      rw [div_neg, neg_div]
    rw [hneg, Rat.floor_intCast_div_natCast, ← Int.fdiv_eq_ediv_of_nonneg _ (Int.natCast_nonneg n),
      ← Int.neg_fdiv_neg, neg_neg]

/-- R143: the remainder of a floor division by a negative divisor lies above the divisor and is not positive. -/
theorem fmod_bounds_of_neg (a : Int) {b : Int} (hb : b < 0) : b < a.fmod b ∧ a.fmod b ≤ 0 := by
  have hneg : a.fmod b = -(-a).fmod (-b) := by rw [Int.neg_fmod_neg, neg_neg]
  have hpos : 0 < -b := by omega
  have hlow := Int.fmod_nonneg_of_pos (-a) hpos
  have hhigh := Int.fmod_lt_of_pos (-a) hpos
  omega

theorem s32_eq_zero_iff (b : Word) : s32 b = 0 ↔ b = 0 := by
  rw [s32, ← BitVec.toInt_inj, BitVec.ofNat_eq_ofNat, BitVec.toInt_zero]

/-- R146: DIV by 0. -/
theorem alu_div_zero (a : Word) : alu .div a 0 = (0, CondFlag.V) := rfl

/-- R140, R143: DIV by another divisor is the floor division of the signed readings. -/
theorem alu_div_of_ne_zero (a : Word) {b : Word} (hb : b ≠ 0) :
    alu .div a b = aluResult ((s32 a).fdiv (s32 b)) :=
  if_neg fun h => hb ((s32_eq_zero_iff b).1 h)

/-- Settles O18: the ALU's floor division is the floor of the rational quotient, and A - q*B is its remainder. -/
theorem divFloorsTheQuotient : Obligations.DivFloorsTheQuotient := by
  intro a b hb q
  have hq : q = a.toInt.fdiv b.toInt := floor_div_eq_fdiv _ _
  have hrem : a.toInt - q * b.toInt = a.toInt.fmod b.toInt := by rw [hq, Int.fmod_def, Int.mul_comm]
  rw [hrem]
  refine ⟨?_, fun hpos => ?_, fun hneg => fmod_bounds_of_neg _ hneg⟩
  · rw [alu_div_of_ne_zero a hb, hq]
    rfl
  · exact ⟨Int.fmod_nonneg_of_pos _ hpos, Int.fmod_lt_of_pos _ hpos⟩

/-! ### Division by zero -/

/-- R140: but for DIV by 0 the ALU answers a wrapped result with its flag. -/
theorem alu_eq_aluResult {op : OpCode} {a b : Word} (h : ¬(op = .div ∧ b = 0)) : ∃ r, alu op a b = aluResult r := by
  cases op with
  | halt | load | store | add | sub | mul => exact ⟨_, rfl⟩
  | div => exact ⟨_, alu_div_of_ne_zero a fun hb => h ⟨rfl, hb⟩⟩

/-- R145: no result has flag V. -/
theorem flagOf_ne_V (r : Word) : flagOf r ≠ CondFlag.V := by
  obtain h | h | h := flagOf_cases r <;> rw [h] <;> decide

/-- R146: V comes from DIV by 0 alone. -/
theorem alu_flag_eq_V_iff (op : OpCode) (a b : Word) : (alu op a b).2 = CondFlag.V ↔ op = .div ∧ b = 0 := by
  constructor
  · intro hV
    by_contra hn
    obtain ⟨r, hr⟩ := alu_eq_aluResult (a := a) hn
    rw [hr] at hV
    exact flagOf_ne_V _ hV
  · rintro ⟨rfl, rfl⟩
    rfl

/-- R180: the target of the arithmetic effect reads the ALU's result, unless it is slot 0. -/
theorem State.readReg_arith_target (s : State) (op : OpCode) (f : Fields) :
    (s.arith op f).readReg f.target = if f.target = zeroReg then 0 else (s.aluOut op f).1 := by
  rw [State.arith, State.readReg_setFlag, State.readReg_writeReg]
  by_cases hz : f.target = zeroReg
  · rw [if_neg fun h => h.2 hz, if_pos hz, hz, State.readReg_zeroReg]
  · rw [if_pos ⟨rfl, hz⟩, if_neg hz]

/-- R180: what the arithmetic effect leaves unchanged. -/
theorem State.arithFrame_arith (s : State) (op : OpCode) (f : Fields) : ArithFrame f s (s.arith op f) := by
  refine ⟨fun hp => ?_, fun q hq hqp => ?_, fun a => by rw [State.arith_mem], s.arith_halted op f, s.arith_fault op f⟩
  · rw [State.arith, State.setFlag_pc, State.writeReg_pc_of_ne _ hp, State.advancePc_pc]
  · rw [State.arith, State.readReg_setFlag, State.readReg_writeReg, if_neg fun h => hq h.1.symm,
      State.readReg_advancePc s hqp]

/-- Settles O20: the ALU's one flag V, and the arithmetic effect of the DIV that has it. -/
theorem divisionByZeroIsFlagV : Obligations.DivisionByZeroIsFlagV := by
  refine ⟨alu_flag_eq_V_iff, alu_div_zero, fun f s hc h0 => ?_⟩
  have hout : s.aluOut .div f = (0, CondFlag.V) := by rw [State.aluOut, h0, alu_div_zero]
  refine ⟨s.arith .div f, exec_of_writesFlag (i := .div f) rfl hc, ?_, ?_, s.arithFrame_arith .div f⟩
  · rw [State.arith_flag, hout]
  · rw [State.readReg_arith_target, hout, ite_self]

/-! ### Unsatisfied instructions -/

/-- R160: an unsatisfied instruction advances the pc. -/
theorem exec_of_not_satisfied {i : Instr} {s : State} (h : s.satisfies i.fields.cond = false) :
    exec i s = .next s.advancePc := by
  obtain ⟨-, e⟩ | ⟨hc, -⟩ := exec_cases i s
  · exact e
  · exact absurd (h.symm.trans hc) Bool.false_ne_true

/-- Settles O28: the pc advance and the empty access list of an unsatisfied instruction. -/
theorem unsatisfiedOnlyAdvancesPc : Obligations.UnsatisfiedOnlyAdvancesPc :=
  fun _ s h => ⟨exec_of_not_satisfied h, s.dataAccess_of_not_satisfied h⟩

/-! ### The loop of run -/

/-- R161: executing an instruction answers a next state. -/
theorem exec_eq_next (i : Instr) (s : State) : ∃ t, exec i s = .next t := by
  obtain ⟨-, e⟩ | ⟨-, ⟨f, -, e⟩ | ⟨f, -, e⟩ | ⟨f, -, e⟩ | ⟨f, -, e⟩⟩ := exec_cases i s <;> exact ⟨_, e⟩

/-- R161: a step answers a next state. -/
theorem step_eq_next (s : State) : ∃ t, step s = .next t := by
  obtain ⟨-, e⟩ | ⟨-, -, e⟩ | ⟨w, c, -, -, -, e⟩ | ⟨w, i, -, -, -, e⟩ := step_cases s <;> rw [e]
  · exact ⟨_, rfl⟩
  · exact ⟨_, rfl⟩
  · exact ⟨_, rfl⟩
  · exact exec_eq_next i s

/-- R162: the loop on a running machine takes one step and goes on. -/
theorem runLoop_succ_of_running {s t : State} (hs : s.stopped = false) (h : step s = .next t) (n : Nat) :
    runLoop (n + 1) s = runLoop n t := by
  simp [runLoop, hs, h]

/-- R162, R163: a loop of `n` steps answers a state, and `k` more steps go on from there. -/
theorem runLoop_add (n k : Nat) (s : State) : ∃ t, runLoop n s = .next t ∧ runLoop (n + k) s = runLoop k t := by
  induction n generalizing s with
  | zero => exact ⟨s, rfl, by rw [Nat.zero_add]⟩
  | succ n ih =>
    cases hs : s.stopped with
    | true => exact ⟨s, runLoop_of_stopped hs _, by rw [runLoop_of_stopped hs, runLoop_of_stopped hs]⟩
    | false =>
      obtain ⟨u, hu⟩ := step_eq_next s
      rw [Nat.succ_add, runLoop_succ_of_running hs hu, runLoop_succ_of_running hs hu]
      exact ih u

/-- R164: a run that has stopped gives the same state under any larger cap. -/
theorem runLoop_add_of_stopped {n : Nat} {s t : State} (h : runLoop n s = .next t) (ht : t.stopped = true) (k : Nat) :
    runLoop (n + k) s = .next t := by
  obtain ⟨u, hu, hadd⟩ := runLoop_add n k s
  obtain rfl : t = u := Host.Outcome.next.inj (h.symm.trans hu)
  rw [hadd, runLoop_of_stopped ht]

/-- Settles O59: one turn of the loop on a running and on a stopped machine, and the split of a run in two. -/
theorem runEndsForGood : Obligations.RunEndsForGood := by
  refine ⟨fun a n s => command_run a n s, fun _ => rfl, fun n s hh hf => ?_, fun n s h => ?_,
    fun n k s t h ht => runLoop_add_of_stopped h ((State.stopped_iff t).2 ht) k, runLoop_add⟩
  · obtain ⟨t, ht⟩ := step_eq_next s
    exact ⟨t, ht, runLoop_succ_of_running (State.stopped_eq_false hh hf) ht n⟩
  · exact runLoop_of_stopped ((State.stopped_iff s).2 h) n

/-! ### The predicate -/

/-- R153: the predicate test, on the words of flags. -/
theorem State.satisfies_iff (s : State) (cond : CondFlag) : s.satisfies cond = true ↔ s.flag &&& cond ≠ 0 :=
  decide_eq_true_iff

/-- R153: satisfied exactly when some bit is set in the flag and in the cond. -/
theorem State.satisfies_iff_shared (s : State) (cond : CondFlag) :
    s.satisfies cond = true ↔ ∃ k, k < 4 ∧ s.flag.getLsbD k = true ∧ cond.getLsbD k = true := by
  simp [State.satisfies_iff, BitVec.eq_of_getLsbD_eq_iff]

/-- R92: ALWAYS has all four bits. -/
theorem CondFlag.ALWAYS_eq_allOnes : CondFlag.ALWAYS = BitVec.allOnes 4 := rfl

/-- R30: a legal flag is not NEVER. -/
theorem FlagLegal.ne_zero {f : CondFlag} (h : FlagLegal f) : f ≠ 0 := by
  obtain rfl | rfl | rfl | rfl | rfl := h <;> decide

/-- Settles O27: the test is a bitwise AND, of which ALWAYS is the unit and NEVER the zero. -/
theorem predicateIsSharedFlag : Obligations.PredicateIsSharedFlag := by
  refine fun s => ⟨s.satisfies_iff_shared, fun h => ?_, FlagLegal.ne_zero, ?_, fun h cond hn => ?_,
    fun i h => exec_of_not_satisfied h⟩
  · rwa [State.satisfies_iff, CondFlag.ALWAYS_eq_allOnes, BitVec.and_allOnes]
  · rw [← Bool.not_eq_true, State.satisfies_iff, not_not]
    exact BitVec.and_zero
  · rwa [State.satisfies_iff, h, CondFlag.ALWAYS_eq_allOnes, BitVec.allOnes_and]

end Sys2Proof.Machine

/-! Proofs about ADD, SUB, MUL and DIV (spec/41_arithmetic.md): their one shared effect, whichever of the four it is. -/

namespace Sys2Proof.Machine

/-- R180: a satisfied ADD, SUB, MUL or DIV, named by its opcode, has the arithmetic effect of that opcode. -/
theorem exec_instr_of_satisfied {op : OpCode} (hop : op ∈ [OpCode.add, .sub, .mul, .div]) {f : Fields} {s : State}
    (hc : s.satisfies f.cond = true) : exec (op.instr f) s = .next (s.arith op f) := by
  have hexec := exec_of_writesFlag (s := s) (writesFlag_instr hop f) (by rwa [OpCode.fields_instr])
  rwa [OpCode.op_instr, OpCode.fields_instr] at hexec

/-- R180: an instruction that writes the flag makes no access of its own. -/
theorem State.dataAccess_of_writesFlag (s : State) {i : Instr} (hw : writesFlag i = true) : s.dataAccess i = [] := by
  cases i with
  | add f | sub f | mul f | div f => rfl
  | halt f | load f | store f => cases hw

/-- Settles O29: the arithmetic effect with its target, its flag and its frame; the ALU's operands are those of R154. -/
theorem arithmeticWritesAluOutput : Obligations.ArithmeticWritesAluOutput := by
  refine fun op f s hop hc => ⟨s.arith op f, exec_instr_of_satisfied hop hc, fun ht => ?_, s.arith_flag op f,
    s.arithFrame_arith op f, s.dataAccess_of_writesFlag (writesFlag_instr hop f)⟩
  exact (s.readReg_arith_target op f).trans (if_neg ht)

end Sys2Proof.Machine

/-! Proofs about slot 15 (spec/44_control_transfer.md): operands are read before the pc advance, the word a STORE stores
after it. -/

namespace Sys2Proof.Machine

/-! ### Slot 15 as an operand -/

/-- R23: slot 15 reads the pc. -/
@[simp] theorem State.readReg_pcReg (s : State) : s.readReg pcReg = s.pc := rfl

/-- R231: slot 15 as src1 yields the instruction's own address. -/
theorem State.operand1_of_src1_pc (s : State) {f : Fields} (h : f.src1 = pcReg) : s.operand1 f = s.pc := by
  rw [State.operand1, h, State.readReg_pcReg]

/-- R231: slot 15 as src2 yields the instruction's own address, plus the offset. -/
theorem State.operand2_of_src2_pc (s : State) {f : Fields} (h : f.src2 = pcReg) :
    s.operand2 f = s.pc + BitVec.ofInt 32 f.offset := by
  rw [State.operand2_eq, h, State.readReg_pcReg]

/-- R181: ADD's result is the sum of its operands. -/
theorem State.aluOut_add_fst (s : State) (f : Fields) : (s.aluOut .add f).1 = s.operand1 f + s.operand2 f :=
  u32_s32_add _ _

/-- R231: ADD of slot 0 and slot 15 has the displaced address of the instruction as its result. -/
theorem State.aluOut_add_of_pc_relative (s : State) {f : Fields} (h1 : f.src1 = zeroReg) (h2 : f.src2 = pcReg) :
    (s.aluOut .add f).1 = s.pc + BitVec.ofInt 32 f.offset := by
  rw [State.aluOut_add_fst, State.operand1, h1, State.readReg_zeroReg, s.operand2_of_src2_pc h2]
  exact BitVec.zero_add _

/-- Settles O39: the operands of slot 15, and the target of the arithmetic effect of `ADD rT,r0,r15[k]`. -/
theorem slotFifteenReadsOwnAddress : Obligations.SlotFifteenReadsOwnAddress := by
  refine fun f s => ⟨s.operand1_of_src1_pc, s.operand2_of_src2_pc, fun cond target k ht hc => ?_⟩
  refine ⟨_, exec_of_writesFlag (i := .add ⟨cond, target, 0, 15, k, 0⟩) rfl hc, ?_⟩
  calc _ = (s.aluOut .add ⟨cond, target, 0, 15, k, 0⟩).1 := (s.readReg_arith_target .add _).trans (if_neg ht)
    _ = s.pc + BitVec.ofInt 32 k := s.aluOut_add_of_pc_relative rfl rfl

/-! ### Slot 15 stored -/

theorem exec_store_of_satisfied {f : Fields} {s : State} (hc : s.satisfies f.cond = true) :
    exec (.store f) s = .next (s.storeEffect f) := if_pos hc

/-- R202: a STORE at a valid address leaves there the word of its target, read after the pc advance. -/
theorem State.read?_storeEffect (s : State) (f : Fields) (hm : s.mem.wf = true)
    (hv : s.mem.valid (s.effectiveAddr .store f).toNat = true) :
    (s.storeEffect f).mem.read? (s.effectiveAddr .store f).toNat = some (s.advancePc.readReg f.target) := by
  obtain ⟨hn, -⟩ | ⟨m, hw, e⟩ := s.storeEffect_cases f
  · rw [hn] at hv; cases hv
  · rw [e, State.setMem_mem, Memory.read?_of_write? hm hw, if_pos rfl]

/-- R200: the effective address of STORE is the sum of the two operands. -/
theorem State.effectiveAddr_store (s : State) (f : Fields) :
    s.effectiveAddr .store f = s.operand1 f + s.operand2 f := u32_s32_add _ _

/-- Settles O41: slot 15 is stored after the pc advance and is an operand before it. -/
theorem storingSlotFifteenStoresNext : Obligations.StoringSlotFifteenStoresNext := by
  intro f s ht hc hm hv
  refine ⟨⟨_, exec_store_of_satisfied hc, ?_⟩, fun h1 => ?_, fun h2 => ?_⟩
  · rw [s.read?_storeEffect f hm hv, s.readReg_advancePc_eq]
    exact congrArg some (if_pos ht)
  · rw [s.effectiveAddr_store, s.operand1_of_src1_pc h1, s.operand2_eq]
  · rw [s.effectiveAddr_store, s.operand2_of_src2_pc h2, State.operand1]

end Sys2Proof.Machine

/-! Proofs about the loader (spec/70_reset_and_hazards.md section 2): a decimal number is read back (what the object
format of spec/45_assembler.md section 4 needs), and what memory reads as after an image is loaded. -/

namespace Sys2Proof

/-! ### Decimal numbers -/

theorem digitValue_of_isDigit {c : Char} (h : c.isDigit = true) : digitValue c = some (c.toNat - 48) :=
  if_pos (Char.isDigit_iff_toNat.1 h)

theorem digit_lt_ten_of_isDigit {c : Char} (h : c.isDigit = true) : c.toNat - 48 < 10 := by
  have hle : c.toNat ≤ 57 := (Char.isDigit_iff_toNat.1 h).2
  omega

/-- On decimal digits the model's reader is the library's value of a digit string. -/
theorem readDigits_ten_of_isDigit {t : Text} (h : ∀ c ∈ t, c.isDigit = true) (acc : Nat) :
    readDigits 10 acc t = some (Nat.ofDigitChars 10 t acc) := by
  induction t generalizing acc with
  | nil => rfl
  | cons c rest ih =>
    have hc : c.isDigit = true := h c (List.mem_cons_self ..)
    rw [readDigits, digitValue_of_isDigit hc, Nat.ofDigitChars_cons, Nat.mul_comm 10 acc]
    exact (if_pos (digit_lt_ten_of_isDigit hc)).trans (ih (fun d hd => h d (List.mem_cons_of_mem _ hd)) _)

theorem isDigit_of_mem_natText {n : Nat} {c : Char} (h : c ∈ natText n) : c.isDigit = true :=
  Nat.isDigit_of_mem_toDigits (by decide) (by decide) h

@[simp] theorem readNat_natText (n : Nat) : readNat 10 (natText n) = some n := by
  rw [readNat, if_neg (show natText n ≠ [] from Nat.toDigits_ne_nil),
    readDigits_ten_of_isDigit fun _ => isDigit_of_mem_natText]
  exact congrArg some Nat.ofDigitChars_ten_toDigits

/-- A text that does not begin with a minus sign is read as a natural number. -/
theorem readInt_of_head?_ne_minus {t : Text} (h : t.head? ≠ some '-') :
    readInt t = (readNat 10 t).map fun n : Nat => (n : Int) := by
  unfold readInt
  split
  · exact absurd rfl h
  · rfl

@[simp] theorem readInt_natText (n : Nat) : readInt (natText n) = some (n : Int) := by
  have hminus : (natText n).head? ≠ some '-' := fun h =>
    absurd (isDigit_of_mem_natText (List.mem_of_head? h)) (by decide)
  rw [readInt_of_head?_ne_minus hminus, readNat_natText, Option.map_some]

end Sys2Proof

namespace Sys2Proof.Assembler

/-! ### The object format -/

theorem dropWhile_isSpace_eq_self {t : Text} (h : ∀ c ∈ t, isSpace c = false) : t.dropWhile isSpace = t :=
  List.dropWhile_eq_self_iff.2 fun hl => by simp [h _ (List.getElem_mem hl)]

/-- A text without white space is its own trimmed form. -/
theorem trim_eq_self {t : Text} (h : ∀ c ∈ t, isSpace c = false) : trim t = t := by
  rw [trim, dropWhile_isSpace_eq_self h, dropWhile_isSpace_eq_self (by simpa using h), List.reverse_reverse]

theorem isSpace_of_isDigit {c : Char} (h : c.isDigit = true) : isSpace c = false := by
  by_contra hs
  simp only [isSpace, Bool.not_eq_false, Bool.or_eq_true, beq_iff_eq] at hs
  obtain (rfl | rfl) | rfl := hs <;> exact absurd h (by decide)

theorem trim_natText (n : Nat) : trim (natText n) = natText n :=
  trim_eq_self fun _ hc => isSpace_of_isDigit (isDigit_of_mem_natText hc)

/-- R270: the object file of a word stream is read back as the words' unsigned values. -/
theorem readObject_objectText (ws : List Word) :
    readObject (objectText ws) = some (ws.map fun w => (w.toNat : Int)) := by
  induction ws with
  | nil => rfl
  | cons w rest ih =>
    rw [objectText] at ih
    rw [objectText, List.map_cons, readObject, trim_natText, readInt_natText, ih, List.map_cons]

end Sys2Proof.Assembler

namespace Sys2Proof.Machine

/-! ### The loader -/

/-- What the cells give after words are stored from address `a` on: the stored word, or what they gave before. -/
theorem Memory.lookup_storeFrom {hi : Nat} (vs : List Word) {cells : List (Nat × Word)}
    (h : Memory.cellsWf 0 hi cells = true) {a : Nat} (ha : a + vs.length ≤ hi) (b : Nat) :
    Memory.lookup (Memory.storeFrom cells a vs) b =
      if a ≤ b then (vs[b - a]?).getD (Memory.lookup cells b) else Memory.lookup cells b := by
  induction vs generalizing cells a with
  | nil => simp [Memory.storeFrom]
  | cons v rest ih =>
    rw [List.length_cons] at ha
    rw [Memory.storeFrom, ih (Memory.cellsWf_update h (Nat.zero_le a) (by omega) v) (by omega),
      Memory.lookup_update h]
    obtain hlt | rfl | hgt := lt_trichotomy b a
    · rw [if_neg (by omega), if_neg (by omega), if_neg (by omega)]
    · simp
    · rw [if_pos (show a + 1 ≤ b from hgt), if_neg hgt.ne', if_pos hgt.le, show b - a = b - (a + 1) + 1 by omega,
        List.getElem?_cons_succ]

/-- R345, D19: an image longer than memory is refused. -/
theorem Memory.load?_of_lt {m : Memory} {image : List Int} (h : m.words < image.length) :
    m.load? image = none := if_neg (Nat.not_le.2 h)

/-- R345: an image that fits is loaded; each word then reads as the image's integer modulo 2^32, and beyond the image
as it did before. -/
theorem Memory.load?_of_le {m : Memory} (hm : m.wf = true) {image : List Int} (hle : image.length ≤ m.words) :
    ∃ m', m.load? image = some m' ∧ m'.words = m.words ∧
      ∀ b, m'.read? b = (image[b]?.map u32).or (m.read? b) := by
  obtain ⟨-, -, hcells⟩ := (Memory.wf_iff m).1 hm
  refine ⟨_, if_pos hle, rfl, fun b => ?_⟩
  have hlook := Memory.lookup_storeFrom (image.map u32) hcells (a := 0) (by simpa using hle) b
  rw [if_pos (Nat.zero_le b), Nat.sub_zero, List.getElem?_map] at hlook
  by_cases hb : b < m.words
  · simp only [Memory.read?, Memory.valid, hb, decide_true, if_true, hlook]
    cases image[b]? <;> rfl
  · rw [List.getElem?_eq_none (by omega)]
    simp [Memory.read?, Memory.valid, hb]

theorem command_load_of_some {m : Memory} {image : List Int} {s : State} (h : s.mem.load? image = some m) :
    command (.load image) s = .next (s.setMem m) := by
  simp [command, h]

theorem command_load_of_none {image : List Int} {s : State} (h : s.mem.load? image = none) :
    command (.load image) s = .refused (.imageTooLong image.length) := by
  simp [command, h]

/-- R345: a word's unsigned value, reduced modulo 2^32, is the word again. -/
theorem map_ofInt_toNat (ws : List Word) : (ws.map fun w => (w.toNat : Int)).map (BitVec.ofInt 32) = ws := by
  rw [List.map_map]
  exact (List.map_congr_left fun w _ => by simp).trans (List.map_id ws)

/-- Settles O16: the object text is read back line by line, and the loader's spec splits on the length of the image. -/
theorem objectFileLoads : Obligations.ObjectFileLoads := by
  refine ⟨fun ws => ⟨Assembler.readObject_objectText ws, map_ofInt_toNat ws⟩,
    fun image s hm => ⟨fun hlt => ?_, fun hle => ?_⟩⟩
  · exact command_load_of_none (Memory.load?_of_lt hlt)
  · obtain ⟨m, hload, hwords, hread⟩ := Memory.load?_of_le hm hle
    refine ⟨m, command_load_of_some hload, hwords, fun i hi => ?_, fun a ha => ?_⟩
    · rw [hread, List.getElem?_eq_getElem hi]; rfl
    · rw [hread, List.getElem?_eq_none ha]; rfl

end Sys2Proof.Machine

/-! More about the codec, the decoder and the encoder (spec/30_encoding.md): the identities of insert and extract, sign
extension as a bijection, a word as the sum of its fields, and the words of each opcode. -/

namespace Sys2Proof

/-! ### Insert and extract -/

/-- R86: a word keeps its bits when a field is given the value it has. -/
theorem BitField.insert_of_emod_eq_extract {F : BitField} {v : Int} {w : Word} (h : v % 2 ^ F.width = F.extract w) :
    F.insert v w = w := by
  refine BitVec.eq_of_getLsbD_eq fun k hk => ?_
  rw [F.getLsbD_insert v w hk, h, Int.toNat_natCast]
  by_cases hkF : F.low ≤ k ∧ k ≤ F.high
  · have hw := F.low_add_width
    have hlt : k - F.low < F.width := by omega
    rw [if_pos hkF, F.testBit_extract, decide_eq_true hlt, Bool.true_and, Nat.add_sub_cancel' hkF.1]
  · rw [if_neg hkF]

/-- R86: inserting what was extracted gives the word back. -/
theorem BitField.insert_extract (F : BitField) (w : Word) : F.insert (F.extract w) w = w :=
  BitField.insert_of_emod_eq_extract (Int.emod_eq_of_lt (by positivity) (by exact_mod_cast F.extract_lt w))

/-- Settles O3: what each field reads after an insert. -/
theorem packUnpackRoundTrip : Obligations.PackUnpackRoundTrip := fun F _ v w =>
  ⟨F.extract_insert_natCast (F.extract_lt w) 0,
    (congrArg Nat.cast (F.extract_insert v w)).trans (F.emod_eq_toNat v).symm,
    F.insert_extract w, fun h => BitField.extract_insert_of_disjoint h v w⟩

/-! ### Sign extension as a bijection -/

/-- R85: an unsigned reading of `n + 1` bits is itself or 2^(n+1) less. -/
theorem signExtend_of_unsigned {v : Int} {n : Nat} (hl : 0 ≤ v) (hh : v < 2 ^ (n + 1)) :
    signExtend v (n + 1) = if v < 2 ^ n then v else v - 2 ^ (n + 1) := by
  simp only [signExtend, Int.emod_eq_of_lt hl hh, Nat.add_sub_cancel, ge_iff_le, ← Int.not_lt, ite_not]

/-- R85: the signed range. -/
theorem signExtend_bounds {v : Int} {n : Nat} (hl : 0 ≤ v) (hh : v < 2 ^ (n + 1)) :
    -2 ^ n ≤ signExtend v (n + 1) ∧ signExtend v (n + 1) < 2 ^ n := by
  have hpow : (2 : Int) ^ (n + 1) = 2 * 2 ^ n := Int.pow_succ' 2 n
  rw [signExtend_of_unsigned hl hh]
  split <;> omega

/-- R85: every signed value is the reading of exactly one unsigned one, its remainder modulo 2^(n+1). -/
theorem signExtend_eq_iff {v y : Int} {n : Nat} (hl : 0 ≤ v) (hh : v < 2 ^ (n + 1)) (hyl : -2 ^ n ≤ y)
    (hyh : y < 2 ^ n) : signExtend v (n + 1) = y ↔ v = y % 2 ^ (n + 1) := by
  constructor
  · rintro rfl
    rw [emod_signExtend, Int.emod_eq_of_lt hl hh]
  · rintro rfl
    rw [signExtend_emod_two_pow, signExtend_of_fits hyl hyh]

/-- Settles O4: the remainder is the inverse of sign extension, and only the value modulo 2^n counts. -/
theorem signExtendIsStableBijection : Obligations.SignExtendIsStableBijection := by
  intro n h1 _
  obtain ⟨n, rfl⟩ : ∃ k, n = k + 1 := ⟨n - 1, by omega⟩
  refine ⟨fun v hl hh => ?_, fun y hl hh => ?_,
    fun v => ⟨signExtend_congr (emod_signExtend v _), emod_signExtend v _⟩,
    fun F w => BitField.insert_of_emod_eq_extract (F.extractSigned_emod w)⟩
  · obtain ⟨hlow, hhigh⟩ := signExtend_bounds hl hh
    exact ⟨hlow, hhigh, signExtend_of_unsigned hl hh⟩
  · have hpos : (0 : Int) < 2 ^ (n + 1) := by positivity
    have hnonneg := Int.emod_nonneg y hpos.ne'
    have hlt := Int.emod_lt_of_pos y hpos
    exact ⟨y % 2 ^ (n + 1), ⟨hnonneg, hlt, (signExtend_eq_iff hnonneg hlt hl hh).2 rfl⟩,
      fun v' hl' hh' h => (signExtend_eq_iff hl' hh' hl hh).1 h⟩

/-! ### The word as the sum of its fields -/

/-- R91: the value of a word, field by field. -/
theorem toNat_eq_sum_fields (w : Word) :
    w.toNat = Layout.js32.reserved.extract w * 2 ^ 31 + Layout.js32.op.extract w * 2 ^ 26 +
      Layout.js32.cond.extract w * 2 ^ 22 + Layout.js32.target.extract w * 2 ^ 18 +
      Layout.js32.src1.extract w * 2 ^ 14 + Layout.js32.src2.extract w * 2 ^ 10 + Layout.js32.offset.extract w := by
  have hw := w.isLt
  simp only [BitField.extract_eq_div_mod, Layout.js32, BitField.width]
  omega

/-- R100: the value of an encoded word. -/
theorem toNat_encode (i : Instr) :
    (encode i).toNat = i.op.code * 2 ^ 26 + i.fields.cond.toNat * 2 ^ 22 + i.fields.target.val * 2 ^ 18 +
      i.fields.src1.val * 2 ^ 14 + i.fields.src2.val * 2 ^ 10 + (i.fields.offset % 1024).toNat := by
  rw [toNat_eq_sum_fields, extract_reserved_encode, extract_op_encode, extract_cond_encode, extract_target_encode,
    extract_src1_encode, extract_src2_encode, extract_offset_encode, Nat.zero_mul, Nat.zero_add]
  rfl

/-- R100: the encoded word as the tables of the spec write it. -/
theorem encode_eq_tableWord (i : Instr) : encode i = Machine.TableWord (i.op.code * 2 ^ 26) i.fields := by
  rw [Machine.TableWord, ← toNat_encode, BitVec.ofNat_toNat, BitVec.setWidth_eq]

/-- R100: bit 31 of an encoded word is 0. -/
theorem getLsbD_encode_reserved (i : Instr) : (encode i).getLsbD 31 = false := by
  have h := (extract_reserved_encode i).trans Layout.js32.reserved.extract_zero.symm
  exact BitField.getLsbD_eq_of_extract_eq h le_rfl le_rfl

/-- R100: the record's reserved bit is not encoded. -/
theorem encode_instr_reserved (op : OpCode) (f : Fields) (r : BitVec 1) :
    encode (op.instr { f with reserved := r }) = encode (op.instr f) := by
  simp only [encode, Machine.OpCode.op_instr, Machine.OpCode.fields_instr]

/-- Settles O5: the value of the word, its bit 31, and the record's reserved bit. -/
theorem encodePlacesFields : Obligations.EncodePlacesFields := fun i =>
  ⟨toNat_encode i, getLsbD_encode_reserved i, encode_instr_reserved⟩

/-! ### The decoder's verdict -/

/-- R102: a code is undeclared when it is no opcode's. -/
theorem opOfCode_eq_none_iff (c : Nat) : opOfCode c = none ↔ ∀ op : OpCode, op.code ≠ c := by
  rw [Option.eq_none_iff_forall_ne_some]
  exact forall_congr' fun op => not_congr (opOfCode_eq_some_iff c op)

/-- R102: the codes of the seven opcodes, written out. -/
theorem forall_code_ne_iff (c : Nat) :
    (∀ op : OpCode, op.code ≠ c) ↔ c ≠ 0 ∧ c ≠ 1 ∧ c ≠ 2 ∧ c ≠ 3 ∧ c ≠ 5 ∧ c ≠ 6 ∧ c ≠ 7 := by
  constructor
  · intro h
    exact ⟨(h .halt).symm, (h .load).symm, (h .store).symm, (h .add).symm, (h .sub).symm, (h .mul).symm,
      (h .div).symm⟩
  · rintro ⟨h0, h1, h2, h3, h5, h6, h7⟩ op
    cases op <;> exact Ne.symm ‹_›

/-- R102, R104: the other verdict names the op field. -/
theorem decode_eq_undeclared_iff (w : Word) (c : Nat) :
    decode w = .undeclared c ↔ c = Layout.js32.op.extract w ∧ ∀ op : OpCode, op.code ≠ c := by
  rw [← opOfCode_eq_none_iff]
  cases hop : opOfCode (Layout.js32.op.extract w) with
  | none =>
    simp only [decode, Config.js32_layout, hop, Decoded.undeclared.injEq]
    constructor
    · rintro rfl; exact ⟨rfl, hop⟩
    · exact fun h => h.1.symm
  | some op =>
    simp only [decode, Config.js32_layout, hop, reduceCtorEq, false_iff]
    rintro ⟨rfl, h⟩
    rw [hop] at h
    cases h

/-- R85: sign extension is the two's complement reading of a bit vector. -/
theorem signExtend_toNat {n : Nat} (b : BitVec (n + 1)) : signExtend b.toNat (n + 1) = b.toInt := by
  have hpow : (2 : Nat) ^ (n + 1) = 2 * 2 ^ n := Nat.pow_succ'
  have hlt : (b.toNat : Int) < 2 ^ (n + 1) := by exact_mod_cast b.isLt
  have hhalf : (b.toNat : Int) < 2 ^ n ↔ 2 * b.toNat < 2 ^ (n + 1) := by
    rw [hpow, Nat.mul_lt_mul_left Nat.two_pos]
    exact_mod_cast Iff.rfl
  rw [signExtend_of_unsigned (Int.natCast_nonneg _) hlt, BitVec.toInt_eq_toNat_cond, if_congr hhalf rfl rfl]
  push_cast
  rfl

/-- R102: the fields a word decodes to, at their places. -/
theorem decodeFields_places (w : Word) :
    (decodeFields w).cond.toNat = w.toNat / 2 ^ 22 % 16 ∧ (decodeFields w).target.val = w.toNat / 2 ^ 18 % 16 ∧
    (decodeFields w).src1.val = w.toNat / 2 ^ 14 % 16 ∧ (decodeFields w).src2.val = w.toNat / 2 ^ 10 % 16 ∧
    (decodeFields w).offset = (BitVec.ofNat 10 w.toNat).toInt ∧ (decodeFields w).reserved = 0 := by
  have hplace : ∀ F : BitField, F.extract w % 2 ^ F.width = w.toNat / 2 ^ F.low % 2 ^ F.width := fun F => by
    rw [F.extract_eq_div_mod, Nat.mod_mod]
  refine ⟨hplace Layout.js32.cond, hplace Layout.js32.target, hplace Layout.js32.src1, hplace Layout.js32.src2, ?_, rfl⟩
  rw [← signExtend_toNat, BitVec.toNat_ofNat, ← Nat.div_one w.toNat]
  exact congrArg (fun u : Nat => signExtend u 10) (Layout.js32.offset.extract_eq_div_mod w)

/-- Settles O6: the op field decides the verdict, and the other fields are read at their places. -/
theorem decodeReadsFields : Obligations.DecodeReadsFields := by
  refine fun w => ⟨fun c => ?_, fun i hd => ?_⟩
  · rw [decode_eq_undeclared_iff, forall_code_ne_iff, BitField.extract_eq_div_mod]
    rfl
  · obtain ⟨hcode, hfields⟩ := (decode_eq_valid_iff w i).1 hd
    refine ⟨?_, hfields ▸ decodeFields_places w⟩
    have hop : w.toNat / 2 ^ 26 % 32 = i.op.code := (Layout.js32.op.extract_eq_div_mod w).symm.trans hcode.symm
    rw [hop]
    cases i.op <;> rfl

/-! ### Well-formed instructions -/

/-- R95: what a well-formed instruction is. -/
theorem Instr.wellFormed_iff (i : Instr) :
    i.wellFormed = true ↔ -512 ≤ i.fields.offset ∧ i.fields.offset ≤ 511 ∧ i.fields.reserved = 0 := by
  simp only [Instr.wellFormed, Fields.wellFormed, Bool.and_eq_true, decide_eq_true_eq, and_assoc]

/-- R105: encoding loses nothing of a well-formed instruction. -/
theorem decode_encode_of_wellFormed {i : Instr} (h : i.wellFormed = true) : decode (encode i) = .valid i := by
  obtain ⟨hl, hh, hr⟩ := (Instr.wellFormed_iff i).1 h
  rw [decode_encode, signExtend_of_fits (n := 9) hl (by omega), ← hr]
  exact congrArg Decoded.valid i.instr_op_fields

/-- R105: the decoder gives well-formed instructions alone: its offset is a ten-bit signed reading. -/
theorem wellFormed_of_decode {w : Word} {i : Instr} (h : decode w = .valid i) : i.wellFormed = true := by
  obtain ⟨-, hfields⟩ := (decode_eq_valid_iff w i).1 h
  have hlt : (Layout.js32.offset.extract w : Int) < 2 ^ 10 := by exact_mod_cast Layout.js32.offset.extract_lt w
  obtain ⟨hl, hh⟩ := signExtend_bounds (n := 9) (Int.natCast_nonneg _) hlt
  rw [Instr.wellFormed_iff, hfields]
  exact ⟨hl, Int.le_of_lt_add_one hh, rfl⟩

/-- Settles O9: the encoder loses nothing of a well-formed instruction, and the decoder gives no other. -/
theorem decodeOfEncodeIsIdentity : Obligations.DecodeOfEncodeIsIdentity :=
  ⟨fun _ => decode_encode_of_wellFormed, fun _ _ => wellFormed_of_decode⟩

/-- Settles O10: the decoder evaluated on the nine words. -/
theorem specWordsDecode : Obligations.SpecWordsDecode := by
  unfold Obligations.SpecWordsDecode
  decide

/-! ### The words of an opcode -/

/-- R82, R84: masking a word to a field leaves the field alone, in a zero word. -/
theorem BitField.and_mask_eq_insert (F : BitField) (w : Word) :
    w &&& (BitVec.ofNat 32 F.mask <<< F.low) = F.insert (F.extract w) 0 := by
  refine BitVec.eq_of_getLsbD_eq fun k hk => ?_
  rw [BitVec.getLsbD_and, F.getLsbD_mask hk]
  by_cases hkF : F.low ≤ k ∧ k ≤ F.high
  · have hself : w.getLsbD k = (F.insert (F.extract w) 0).getLsbD k :=
      BitField.getLsbD_eq_of_extract_eq (F.extract_insert_natCast (F.extract_lt w) 0).symm hkF.1 hkF.2
    rw [decide_eq_true hkF, Bool.and_true, hself]
  · rw [decide_eq_false hkF, Bool.and_false, F.getLsbD_insert _ _ hk, if_neg hkF]
    exact BitVec.getLsbD_zero.symm

/-- R102: the words of an opcode are those whose op field is its code. -/
theorem and_opMask_eq_iff (op : OpCode) (w : Word) :
    w &&& 0x7C000000#32 = Layout.js32.op.insert op.code 0 ↔ ∃ f, decode w = .valid (op.instr f) := by
  have hmask : w &&& 0x7C000000#32 = Layout.js32.op.insert (Layout.js32.op.extract w) 0 :=
    Layout.js32.op.and_mask_eq_insert w
  have hcode := Layout.js32.op.extract_insert_natCast op.code_lt 0
  rw [hmask]
  constructor
  · intro h
    refine ⟨decodeFields w, decode_of_code ?_⟩
    rw [← hcode, ← h, BitField.extract_insert_natCast _ (BitField.extract_lt _ w)]
  · rintro ⟨f, hd⟩
    obtain ⟨hw, -⟩ := (decode_eq_valid_iff w _).1 hd
    rw [← hw, Machine.OpCode.op_instr]

end Sys2Proof

/-! Proofs about the text of an instruction and the assembler (spec/30_encoding.md section 9, spec/45_assembler.md): one
kind of text, `FullLine`, stands for the canonical form and for the two lowered forms, and is read as the FULL line of
its parts. Pass A numbers the lines that take an address. -/

namespace Sys2Proof

/-! ### Names read back -/

/-- R93, R255. -/
theorem readPred_text (c : CondFlag) : readPred (CondFlag.text c) = some c := by
  revert c
  decide

/-- Settles O11: every name is read back, so no two values share one. -/
theorem predicateNamesReadBack : Obligations.PredicateNamesReadBack :=
  ⟨readPred_text, fun c d h => Option.some.inj (by rw [← readPred_text c, h, readPred_text])⟩

/-- R24. -/
theorem readReg_regText (r : Reg) : readReg (regText r) = some r := by
  revert r
  decide

/-- R94, R253. -/
theorem readOp_text (op : OpCode) : readOp op.text = some op := by
  cases op <;> decide

/-- R110: a signed decimal is read back. -/
@[simp] theorem readInt_intText (v : Int) : readInt (intText v) = some v := by
  unfold intText
  split
  · rw [readInt, readNat_natText, Option.map_some]
    congr 1
    omega
  · rw [readInt_natText]
    congr 1
    omega

end Sys2Proof

namespace Sys2Proof.Assembler

/-! ### Names and characters -/

theorem isName_opText (op : OpCode) : isName op.text = true := by
  cases op <;> decide

theorem isName_predText (c : CondFlag) : isName (CondFlag.text c) = true := by
  revert c
  decide

theorem isName_regText (r : Reg) : isName (regText r) = true := by
  revert r
  decide

theorem isNameChar_of_mem {t : Text} (h : isName t = true) {c : Char} (hc : c ∈ t) : isNameChar c = true := by
  cases t with
  | nil => cases hc
  | cons d rest =>
    rw [isName, Bool.and_eq_true, List.all_eq_true] at h
    obtain ⟨hd, hrest⟩ := h
    obtain rfl | hc := List.mem_cons.1 hc
    · simp [isNameChar, hd]
    · exact hrest c hc

theorem ne_nil_of_isName {t : Text} (h : isName t = true) : t ≠ [] := by
  rintro rfl
  cases h

/-- A name holds no separator. -/
theorem not_mem_of_isName {t : Text} (h : isName t = true) {c : Char} (hc : isNameChar c = false) : c ∉ t := by
  intro hm
  rw [isNameChar_of_mem h hm] at hc
  cases hc

theorem isSpace_iff (c : Char) : isSpace c = true ↔ c = ' ' ∨ c = '\t' ∨ c = '\r' := by
  simp only [isSpace, Bool.or_eq_true, beq_iff_eq, or_assoc]

theorem isSpace_of_isNameChar {c : Char} (h : isNameChar c = true) : isSpace c = false := by
  rw [← Bool.not_eq_true, isSpace_iff]
  rintro (rfl | rfl | rfl) <;> exact absurd h (by decide)

/-- The characters of a signed decimal. -/
theorem mem_intText {v : Int} {c : Char} (h : c ∈ intText v) : c = '-' ∨ c.isDigit = true := by
  unfold intText at h
  split at h
  · obtain rfl | hc := List.mem_cons.1 h
    · exact .inl rfl
    · exact .inr (isDigit_of_mem_natText hc)
  · exact .inr (isDigit_of_mem_natText h)

/-! ### Cutting and splitting -/

/-- A text without the separator is one part. -/
theorem cutAt_of_not_mem {sep : Char} {t : Text} (h : sep ∉ t) : cutAt sep t = (t, none) := by
  induction t with
  | nil => rfl
  | cons c rest ih =>
    rw [List.mem_cons, not_or] at h
    rw [cutAt, if_neg (Ne.symm h.1), ih h.2]

/-- A text is cut at its first separator. -/
theorem cutAt_append {sep : Char} {t : Text} (h : sep ∉ t) (u : Text) : cutAt sep (t ++ sep :: u) = (t, some u) := by
  induction t with
  | nil => rw [List.nil_append, cutAt, if_pos rfl]
  | cons c rest ih =>
    rw [List.mem_cons, not_or] at h
    rw [List.cons_append, cutAt, if_neg (Ne.symm h.1), ih h.2]

theorem splitAt_of_not_mem {sep : Char} {t : Text} (h : sep ∉ t) : splitAt sep t = [t] := by
  induction t with
  | nil => rfl
  | cons c rest ih =>
    rw [List.mem_cons, not_or] at h
    rw [splitAt, if_neg (Ne.symm h.1), ih h.2]

theorem splitAt_append {sep : Char} {t : Text} (h : sep ∉ t) (u : Text) :
    splitAt sep (t ++ sep :: u) = t :: splitAt sep u := by
  induction t with
  | nil => rw [List.nil_append, splitAt, if_pos rfl]
  | cons c rest ih =>
    rw [List.mem_cons, not_or] at h
    rw [List.cons_append, splitAt, if_neg (Ne.symm h.1), ih h.2]

/-! ### White space -/

/-- A nonempty text with no white space at either end. -/
def Tight (t : Text) : Prop := t.head?.map isSpace = some false ∧ t.getLast?.map isSpace = some false

/-- Blanks before a text that begins with another character are dropped. -/
theorem dropWhile_isSpace_append {l t : Text} (hl : ∀ c ∈ l, isSpace c = true)
    (ht : t.head?.map isSpace = some false) : (l ++ t).dropWhile isSpace = t := by
  rw [List.dropWhile_append_of_pos hl]
  cases t with
  | nil => rfl
  | cons c rest => exact List.dropWhile_cons_of_neg (by simpa using ht)

/-- Blanks around a tight text are trimmed off. -/
theorem trim_of_tight {l t r : Text} (ht : Tight t) (hl : ∀ c ∈ l, isSpace c = true)
    (hr : ∀ c ∈ r, isSpace c = true) : trim (l ++ t ++ r) = t := by
  obtain ⟨hhead, hlast⟩ := ht
  have hfront : (t ++ r).head?.map isSpace = some false := by
    cases t with
    | nil => cases hhead
    | cons c rest => exact hhead
  have hback : t.reverse.head?.map isSpace = some false := by rwa [List.head?_reverse]
  rw [trim, List.append_assoc, dropWhile_isSpace_append hl hfront, List.reverse_append,
    dropWhile_isSpace_append (by simpa using hr) hback, List.reverse_reverse]

theorem trim_append_of_tight {l t : Text} (ht : Tight t) (hl : ∀ c ∈ l, isSpace c = true) : trim (l ++ t) = t := by
  simpa using trim_of_tight (r := []) ht hl (by simp)

theorem trim_eq_self_of_tight {t : Text} (ht : Tight t) : trim t = t := trim_append_of_tight (l := []) ht (by simp)

/-- A text is tight when what it begins with and what it ends with are. -/
theorem Tight.append {t u : Text} (ht : Tight t) (hu : Tight u) (m : Text) : Tight (t ++ (m ++ u)) := by
  obtain ⟨c, hc⟩ : ∃ c, t.head? = some c := Option.isSome_iff_exists.1 (by simpa using congrArg Option.isSome ht.1)
  obtain ⟨d, hd⟩ : ∃ d, u.getLast? = some d := Option.isSome_iff_exists.1 (by simpa using congrArg Option.isSome hu.2)
  refine ⟨?_, ?_⟩
  · rw [List.head?_append, hc, Option.some_or, ← hc, ht.1]
  · rw [List.getLast?_append, List.getLast?_append, hd, Option.some_or, Option.some_or, ← hd, hu.2]

theorem Tight.of_isName {t : Text} (h : isName t = true) : Tight t := by
  have hspace : ∀ c ∈ t, isSpace c = false := fun c hc => isSpace_of_isNameChar (isNameChar_of_mem h hc)
  have hne := ne_nil_of_isName h
  refine ⟨?_, ?_⟩
  · rw [List.head?_eq_some_head hne, Option.map_some, hspace _ (List.head_mem hne)]
  · rw [List.getLast?_eq_some_getLast hne, Option.map_some, hspace _ (List.getLast_mem hne)]

/-! ### The text of a FULL line -/

/-- The parts of a FULL line as R110, R256 and R257 write it: the predicate (none for the default), the white space
after the opcode's own blank and after each comma, the operands. -/
structure FullLine where
  op        : OpCode
  pred      : Option CondFlag
  target    : Reg
  src1      : Reg
  src2      : Reg
  offset    : Int
  gap       : Text
  sep       : Text
  gap_blank : ∀ c ∈ gap, isSpace c = true
  sep_blank : ∀ c ∈ sep, isSpace c = true

/-- R110: the opcode with its predicate. -/
def FullLine.head (l : FullLine) : Text := l.op.text ++ sourcePred (l.pred.map CondFlag.text)

/-- R253: `src2[offset]`. -/
def src2Text (r : Reg) (k : Int) : Text := regText r ++ '[' :: (intText k ++ [']'])

/-- R253: the three operands. -/
def FullLine.operands (l : FullLine) : Text :=
  regText l.target ++ ',' :: (l.sep ++ regText l.src1 ++ ',' :: (l.sep ++ src2Text l.src2 l.offset))

/-- The line's text. -/
def FullLine.text (l : FullLine) : Text := l.head ++ ' ' :: (l.gap ++ l.operands)

/-- R253: what the line is read as. -/
def FullLine.body (l : FullLine) : Body :=
  .full l.op.text (l.pred.map CondFlag.text) (regText l.target) (regText l.src1) (regText l.src2) l.offset

/-- R262: the instruction the line stands for. -/
def FullLine.instr (l : FullLine) : Instr :=
  l.op.instr ⟨l.pred.getD CondFlag.ALWAYS, l.target, l.src1, l.src2, l.offset, 0⟩

theorem isNameChar_of_isDigit {c : Char} (h : c.isDigit = true) : isNameChar c = true := by
  obtain ⟨hlow, hhigh⟩ : '0' ≤ c ∧ c ≤ '9' := Char.isDigit_iff_toNat.1 h
  simp [isNameChar, hlow, hhigh]

/-- The opcode with its predicate holds the characters of names and the slash. -/
theorem FullLine.not_mem_head (l : FullLine) {c : Char} (hc : isNameChar c = false) (hslash : c ≠ '/') :
    c ∉ l.head := by
  have hop := not_mem_of_isName (isName_opText l.op) hc
  cases hp : l.pred with
  | none => simpa [FullLine.head, sourcePred, hp] using hop
  | some d => simp [FullLine.head, sourcePred, hp, hop, hslash, not_mem_of_isName (isName_predText d) hc]

theorem not_mem_intText {c : Char} (hc : isNameChar c = false) (hminus : c ≠ '-') (k : Int) : c ∉ intText k := by
  intro hm
  obtain h | hd := mem_intText hm
  · exact hminus h
  · rw [isNameChar_of_isDigit hd] at hc
    cases hc

theorem not_mem_src2Text {c : Char} (hc : isNameChar c = false) (hother : c ∉ ['[', ']', '-']) (r : Reg) (k : Int) :
    c ∉ src2Text r k := by
  simp only [List.mem_cons, List.not_mem_nil, or_false, not_or] at hother
  obtain ⟨hopen, hclose, hminus⟩ := hother
  simp [src2Text, not_mem_of_isName (isName_regText r) hc, not_mem_intText hc hminus, hopen, hclose]

theorem not_mem_of_blank {t : Text} (ht : ∀ c ∈ t, isSpace c = true) {c : Char} (hc : isSpace c = false) : c ∉ t := by
  intro hm
  rw [ht c hm] at hc
  cases hc

/-- A FULL line holds no colon, and begins no comment. -/
theorem FullLine.not_mem_text (l : FullLine) {c : Char} (hc : c ∈ [':', '#', ';']) : c ∉ l.text := by
  obtain ⟨hname, hspace, hother⟩ : isNameChar c = false ∧ isSpace c = false ∧
      c ∉ ['/', ' ', ',', '[', ']', '-'] := by
    simp only [List.mem_cons, List.not_mem_nil, or_false] at hc
    obtain rfl | rfl | rfl := hc <;> decide
  simp only [List.mem_cons, List.not_mem_nil, or_false, not_or] at hother
  obtain ⟨hslash, hblank, hcomma, hrest⟩ := hother
  simp [FullLine.text, FullLine.operands, l.not_mem_head hname hslash, not_mem_of_blank l.gap_blank hspace,
    not_mem_of_blank l.sep_blank hspace, not_mem_of_isName (isName_regText _) hname, hblank, hcomma,
    not_mem_src2Text hname (by simpa using hrest)]

theorem tight_src2Text (r : Reg) (k : Int) : Tight (src2Text r k) := by
  have h := (Tight.of_isName (isName_regText r)).append (u := [']']) ⟨rfl, rfl⟩ ('[' :: intText k)
  rwa [List.cons_append] at h

theorem FullLine.tight_operands (l : FullLine) : Tight l.operands := by
  have h := (Tight.of_isName (isName_regText l.target)).append (tight_src2Text l.src2 l.offset)
    (',' :: (l.sep ++ regText l.src1 ++ ',' :: l.sep))
  simpa [FullLine.operands] using h

theorem FullLine.tight_text (l : FullLine) : Tight l.text := by
  have h := (Tight.of_isName (isName_opText l.op)).append l.tight_operands
    (sourcePred (l.pred.map CondFlag.text) ++ ' ' :: l.gap)
  simpa [FullLine.text, FullLine.head] using h

/-! ### The FULL line read -/

theorem trim_regText (r : Reg) : trim (regText r) = regText r :=
  trim_eq_self_of_tight (Tight.of_isName (isName_regText r))

theorem trim_intText (k : Int) : trim (intText k) = intText k :=
  trim_eq_self fun c hc => by
    obtain rfl | hd := mem_intText hc
    · decide
    · exact isSpace_of_isDigit hd

theorem readSrc2_src2Text (r : Reg) (k : Int) : readSrc2 (src2Text r k) = some (regText r, k) := by
  have hopen : cutAt '[' (src2Text r k) = (regText r, some (intText k ++ [']'])) :=
    cutAt_append (not_mem_of_isName (isName_regText r) (by decide)) _
  have hclose : cutAt ']' (intText k ++ [']']) = (intText k, some []) :=
    cutAt_append (not_mem_intText (by decide) (by decide) k) []
  simp only [readSrc2, hopen, hclose, trim_intText, trim_regText, readInt_intText, Option.map_some]

theorem FullLine.splitAt_operands (l : FullLine) :
    splitAt ',' l.operands = [regText l.target, l.sep ++ regText l.src1, l.sep ++ src2Text l.src2 l.offset] := by
  have hreg : ∀ r : Reg, ',' ∉ regText r := fun r => not_mem_of_isName (isName_regText r) (by decide)
  have hblank : ',' ∉ l.sep := not_mem_of_blank l.sep_blank (by decide)
  have hsrc2 : ',' ∉ src2Text l.src2 l.offset := not_mem_src2Text (by decide) (by decide) _ _
  rw [FullLine.operands, splitAt_append (hreg _), splitAt_append (by simp [hreg, hblank]),
    splitAt_of_not_mem (by simp [hsrc2, hblank])]

theorem FullLine.readOperands_operands (l : FullLine) :
    readOperands l.op.text (l.pred.map CondFlag.text) l.operands = some l.body := by
  have hpred : (l.pred.map CondFlag.text).all isName = true := by
    cases l.pred with
    | none => rfl
    | some c => exact isName_predText c
  have hsrc1 := trim_append_of_tight (Tight.of_isName (isName_regText l.src1)) l.sep_blank
  have hsrc2 := trim_append_of_tight (tight_src2Text l.src2 l.offset) l.sep_blank
  simp only [readOperands, isName_opText, hpred, l.splitAt_operands, hsrc1, hsrc2, trim_regText, readSrc2_src2Text,
    isName_regText, Bool.and_self, if_true, FullLine.body]

theorem FullLine.cutAt_head (l : FullLine) : cutAt '/' l.head = (l.op.text, l.pred.map CondFlag.text) := by
  have hop : '/' ∉ l.op.text := not_mem_of_isName (isName_opText l.op) (by decide)
  cases hp : l.pred with
  | none => rw [FullLine.head, hp, Option.map_none, sourcePred, List.append_nil, cutAt_of_not_mem hop]
  | some c =>
    rw [FullLine.head, hp]
    exact cutAt_append hop _

/-- The first word of a FULL line is its opcode with the predicate. -/
theorem FullLine.takeWhile_text (l : FullLine) : l.text.takeWhile (fun c => !isSpace c) = l.head := by
  have hhead : ∀ c ∈ l.head, (!isSpace c) = true := fun c hc => by
    rw [Bool.not_eq_true', ← Bool.not_eq_true, isSpace_iff]
    rintro (rfl | rfl | rfl) <;> exact l.not_mem_head (by decide) (by decide) hc
  rw [FullLine.text, List.takeWhile_append_of_pos hhead, List.takeWhile_cons_of_neg (by decide), List.append_nil]

theorem opText_ne (op : OpCode) : op.text ≠ ['D', 'A', 'T', 'A'] ∧ op.text ≠ ['J', 'U', 'M', 'P'] := by
  cases op <;> decide

theorem FullLine.readBody_text (l : FullLine) : readBody l.text = some l.body := by
  have hne : l.text ≠ [] := fun h => by
    have hhead := l.tight_text.1
    rw [h] at hhead
    cases hhead
  have hrest : trim (l.text.drop l.head.length) = l.operands := by
    rw [FullLine.text, List.drop_left, ← List.cons_append]
    exact trim_append_of_tight l.tight_operands (by simpa [isSpace] using l.gap_blank)
  obtain ⟨hdata, hjump⟩ := opText_ne l.op
  simp only [readBody, trim_eq_self_of_tight l.tight_text, hne, l.takeWhile_text, hrest, l.cutAt_head, hdata, hjump,
    if_false, l.readOperands_operands]

/-- Whatever comment and blanks follow, the line is read as the FULL line. -/
theorem FullLine.readLine_of_dropComment (l : FullLine) {t r : Text} (hr : ∀ c ∈ r, isSpace c = true)
    (ht : dropComment t = l.text ++ r) : readLine t = some ⟨none, l.body⟩ := by
  have htrim : trim (l.text ++ r) = l.text := trim_of_tight (l := []) l.tight_text (by simp) hr
  have hlabel := cutAt_of_not_mem (l.not_mem_text (c := ':') (by simp))
  simp only [readLine, ht, htrim, cutLabel, hlabel, l.readBody_text, Option.map_some]

theorem FullLine.readInstr_parts (l : FullLine) :
    readInstr l.op.text (l.pred.map CondFlag.text) (regText l.target) (regText l.src1) (regText l.src2) l.offset =
      some l.instr := by
  rw [FullLine.instr]
  cases l.pred <;> simp [readInstr, readOp_text, readReg_regText, readPred_text]

/-- R262: Phase 2 turns a FULL line, whatever comment and blanks follow, into the word of its instruction. -/
theorem FullLine.phase2Line_of_dropComment (l : FullLine) {t r : Text} (hr : ∀ c ∈ r, isSpace c = true)
    (ht : dropComment t = l.text ++ r) : phase2Line t = .ok (some (encode l.instr)) := by
  simp only [phase2Line, l.readLine_of_dropComment hr ht, FullLine.body, l.readInstr_parts]

/-! ### Comments -/

/-- R254: what stands before the first comment character is kept, and a comment dropped. -/
theorem dropComment_append {t u : Text} (ht : ∀ c ∈ [':', '#', ';'], c ∉ t) (hu : u.head? ∈ [none, some '#']) :
    dropComment (t ++ u) = t := by
  have hkeep : ∀ c ∈ t, (!(c == '#' || c == ';')) = true := fun c hc => by
    have hhash : c ≠ '#' := fun e => ht '#' (by simp) (e ▸ hc)
    have hsemi : c ≠ ';' := fun e => ht ';' (by simp) (e ▸ hc)
    simp [hhash, hsemi]
  rw [dropComment, List.takeWhile_append_of_pos hkeep]
  cases u with
  | nil => rw [List.takeWhile_nil, List.append_nil]
  | cons c rest =>
    obtain rfl : c = '#' := by simpa using hu
    rw [List.takeWhile_cons_of_neg (by decide), List.append_nil]

/-- R262: a FULL line without a comment. -/
theorem FullLine.phase2Line_text (l : FullLine) : phase2Line l.text = .ok (some (encode l.instr)) := by
  have hdrop := dropComment_append (u := []) (fun c => l.not_mem_text) (by simp)
  exact l.phase2Line_of_dropComment (r := []) (by simp) (by simpa using hdrop)

/-- R262: a FULL line with a comment after one blank. -/
theorem FullLine.phase2Line_text_comment (l : FullLine) (comment : Text) :
    phase2Line (l.text ++ [' '] ++ '#' :: comment) = .ok (some (encode l.instr)) := by
  have hnone : ∀ c ∈ [':', '#', ';'], c ∉ l.text ++ [' '] := fun c hc hm => by
    obtain hm | hm := List.mem_append.1 hm
    · exact l.not_mem_text hc hm
    · obtain rfl := List.mem_singleton.1 hm
      simp at hc
  exact l.phase2Line_of_dropComment (by simp [isSpace]) (dropComment_append hnone (by simp))

/-! ### The canonical text -/

/-- R110: the canonical text has three blanks after the opcode, none after a comma, and no predicate ALWAYS. -/
def canonicalLine (i : Instr) : FullLine where
  op        := i.op
  pred      := if i.fields.cond = CondFlag.ALWAYS then none else some i.fields.cond
  target    := i.fields.target
  src1      := i.fields.src1
  src2      := i.fields.src2
  offset    := i.fields.offset
  gap       := [' ', ' ']
  sep       := []
  gap_blank := by simp [isSpace]
  sep_blank := by simp

theorem text_canonicalLine (i : Instr) : (canonicalLine i).text = i.text := by
  by_cases hc : i.fields.cond = CondFlag.ALWAYS <;>
    simp [Instr.text, canonicalLine, FullLine.text, FullLine.head, FullLine.operands, src2Text, predText, sourcePred,
      hc]

theorem instr_canonicalLine {i : Instr} (h : i.fields.reserved = 0) : (canonicalLine i).instr = i := by
  have hcond : (canonicalLine i).pred.getD CondFlag.ALWAYS = i.fields.cond := by
    by_cases hc : i.fields.cond = CondFlag.ALWAYS <;> simp [canonicalLine, hc]
  rw [FullLine.instr, hcond, ← h]
  exact i.instr_op_fields

/-- Settles O12: the canonical text is a FULL line of the instruction's own parts. -/
theorem canonicalTextReassembles : Obligations.CanonicalTextReassembles := fun i h => by
  rw [← text_canonicalLine, FullLine.phase2Line_text, instr_canonicalLine h]

/-! ### The lowered lines -/

/-- R256, R257: a lowered line has slots 0 and 15 as its sources, and one blank after the opcode and after a comma. -/
def loweredLine (op : OpCode) (pred : Option CondFlag) (target : Reg) (displacement : Int) : FullLine where
  op        := op
  pred      := pred
  target    := target
  src1      := 0
  src2      := 15
  offset    := displacement
  gap       := []
  sep       := [' ']
  gap_blank := by simp
  sep_blank := by simp [isSpace]

theorem text_loweredLine (op : OpCode) (pred : Option CondFlag) (target : Reg) (k : Int) :
    (loweredLine op pred target k).text =
      lowered (op.text ++ sourcePred (pred.map CondFlag.text)) (regText target) k := by
  have h0 : regText 0 = ['r', '0'] := by decide
  have h15 : regText 15 = ['r', '1', '5'] := by decide
  simp [loweredLine, lowered, FullLine.text, FullLine.head, FullLine.operands, src2Text, h0, h15]

/-- R257, R262: the word of a lowered JUMP line. -/
theorem phase2Line_lowerJump (pred : Option CondFlag) (k : Int) :
    phase2Line (lowerJump (pred.map CondFlag.text) k) = .ok (some (encode (loweredLine .add pred 15 k).instr)) := by
  rw [← FullLine.phase2Line_text, text_loweredLine]
  rfl

/-- R256, R262: the word of a lowered two-operand line, whatever label its comment keeps. -/
theorem phase2Line_lowerMemop (op : OpCode) (pred : Option CondFlag) (r : Reg) (name : Text) (k : Int) :
    phase2Line (lowerMemop op.text (pred.map CondFlag.text) (regText r) name k) =
      .ok (some (encode (loweredLine op pred r k).instr)) := by
  rw [← FullLine.phase2Line_text_comment _ name, text_loweredLine, lowerMemop]
  simp

/-- R257: a JUMP line to a label of the table is lowered. -/
theorem lowerLine_jump {labels : Labels} {name : Text} {b : Nat} (h : labels.address name = some b) (address : Nat)
    (t : Text) (own pred : Option Text) :
    lowerLine labels address t ⟨own, .jump pred name⟩ = .ok (lowerJump pred ((b : Int) - address)) := by
  simp only [lowerLine, h]

/-- R256: a two-operand line with a label of the table is lowered. -/
theorem lowerLine_memop {labels : Labels} {name : Text} {b : Nat} (h : labels.address name = some b) (address : Nat)
    (t : Text) (own pred : Option Text) (op target : Text) :
    lowerLine labels address t ⟨own, .memop op pred target name⟩ =
      .ok (lowerMemop op pred target name ((b : Int) - address)) := by
  simp only [lowerLine, h]

/-- Settles O13: the lowered JUMP line is a FULL line of ADD, with the predicate and without. -/
theorem jumpIsRelativeAdd : Obligations.JumpIsRelativeAdd := fun _ address _ t _ own c h =>
  ⟨⟨_, lowerLine_jump h address t own _, phase2Line_lowerJump (some c) _⟩,
    ⟨_, lowerLine_jump h address t own none, phase2Line_lowerJump none _⟩⟩

/-- Settles O14: the lowered two-operand line is a FULL line of its opcode, with the predicate and without. -/
theorem memoryOperandIsPcRelative : Obligations.MemoryOperandIsPcRelative := fun _ address _ t name own op r c h =>
  ⟨⟨_, lowerLine_memop h address t own _ _ _, phase2Line_lowerMemop op (some c) r name _⟩,
    ⟨_, lowerLine_memop h address t own none _ _, phase2Line_lowerMemop op none r name _⟩⟩

/-! ### Pass A -/

/-- The addresses that the lines of a source take: those that some form matches and that are not COMMENT. -/
def addressCount (source : List Text) : Nat :=
  ((source.filterMap readLine).filter fun l => decide (l.body ≠ .comment)).length

theorem addressCount_cons_of_none {t : Text} (h : readLine t = none) (rest : List Text) :
    addressCount (t :: rest) = addressCount rest := by
  rw [addressCount, List.filterMap_cons_none h, addressCount]

theorem addressCount_cons_of_some {t : Text} {l : Line} (h : readLine t = some l) (rest : List Text) :
    addressCount (t :: rest) = l.words + addressCount rest := by
  rw [addressCount, List.filterMap_cons_some h, addressCount, Line.words]
  cases hb : l.body <;> simp [hb, Nat.add_comm]

/-- R252: Pass A of two pieces of source: the second starts at the address, and with the table, the first leaves. -/
theorem passA_append (xs ys : List Text) (address : Nat) (labels : Labels) :
    passA address labels (xs ++ ys) = passA (address + addressCount xs) (passA address labels xs) ys := by
  induction xs generalizing address labels with
  | nil => rfl
  | cons t rest ih =>
    cases h : readLine t with
    | none => simp only [List.cons_append, passA, h, ih, addressCount_cons_of_none h]
    | some l => simp only [List.cons_append, passA, h, ih, addressCount_cons_of_some h, Nat.add_assoc]

/-- R261: a definition gives its label its address. -/
theorem Labels.address_define_self (labels : Labels) {l : Line} {name : Text} (h : l.label = some name) (a : Nat) :
    (labels.define l a).address name = some a := by
  simp [Labels.define, h, Labels.address]

/-- R261: a line leaves the addresses of the labels it does not define. -/
theorem Labels.address_define_of_ne (labels : Labels) {l : Line} {name : Text} (h : l.label ≠ some name) (a : Nat) :
    (labels.define l a).address name = labels.address name := by
  cases hl : l.label with
  | none => simp [Labels.define, hl]
  | some other =>
    have hne : other ≠ name := fun e => h (hl.trans (congrArg some e))
    simp [Labels.define, hl, Labels.address, hne]

/-- R252: Pass A leaves the address of a label that no line defines. -/
theorem passA_address_of_undefined {source : List Text} {name : Text}
    (h : ∀ u ∈ source, ∀ l, readLine u = some l → l.label ≠ some name) (address : Nat) (labels : Labels) :
    (passA address labels source).address name = labels.address name := by
  induction source generalizing address labels with
  | nil => rfl
  | cons t rest ih =>
    have hrest := ih fun u hu => h u (List.mem_cons_of_mem _ hu)
    cases hr : readLine t with
    | none => simp only [passA, hr, hrest]
    | some l => simp only [passA, hr, hrest, Labels.address_define_of_ne labels (h t List.mem_cons_self l hr)]

/-- Settles O15: Pass A up to the line, the line's own definition, and the rest, which leaves it. -/
theorem lastLabelDefinitionWins : Obligations.LastLabelDefinitionWins := by
  intro before after t name body ht hafter
  rw [passA_append, passA, ht, Nat.zero_add]
  exact (passA_address_of_undefined hafter _ _).trans (Labels.address_define_self _ rfl _)

end Sys2Proof.Assembler

/-! More about the register file and memory (spec/10_state.md, spec/20_memory.md): slot 15, the state as its slots and
fields, repeated writes, and memory as the array of the words it reads. -/

namespace Sys2Proof.Machine

/-! ### The register file -/

/-- R23: a write of slot 15 writes the pc. -/
@[simp] theorem State.writeReg_pcReg (s : State) (v : Word) : s.writeReg pcReg v = { s with pc := v } := rfl

/-- Settles O22: slot 15 is read and written as the pc. -/
theorem slotFifteenIsThePc : Obligations.SlotFifteenIsThePc := fun s v => ⟨s.readReg_pcReg, s.writeReg_pcReg v⟩

/-- A state is its sixteen slots and its other fields. -/
theorem State.ext_slots {s t : State} (hslots : ∀ r, s.readReg r = t.readReg r) (hflag : s.flag = t.flag)
    (hhalted : s.halted = t.halted) (hfault : s.fault = t.fault) (hmem : s.mem = t.mem) : s = t := by
  have hpc : s.pc = t.pc := hslots pcReg
  have hregs : s.regs = t.regs := by
    refine Vector.ext fun i hi => ?_
    have hslot := hslots (Fin.ofNat 16 (i + 1))
    have hval : (Fin.ofNat 16 (i + 1)).val = i + 1 := Nat.mod_eq_of_lt (by omega)
    have hne : Fin.ofNat 16 (i + 1) ≠ pcReg := fun e => by
      have h15 : (Fin.ofNat 16 (i + 1)).val = 15 := congrArg Fin.val e
      omega
    rw [s.readReg_cell hne (by omega), t.readReg_cell hne (by omega)] at hslot
    simpa only [hval, Nat.add_sub_cancel] using hslot
  cases s
  cases t
  simp_all

/-- R22, R25: a write of slot `q` before a write of slot `r` is, after it, a write of slot `q` again. -/
theorem State.exists_writeReg_comm (s : State) (q r : Reg) (v x : Word) :
    ∃ v', (s.writeReg q v).writeReg r x = (s.writeReg r x).writeReg q v' := by
  refine ⟨if q = r then x else v, State.ext_slots (fun j => ?_) (by simp) (by simp) (by simp) (by simp)⟩
  simp only [State.readReg_writeReg]
  by_cases hqr : q = r
  · subst hqr
    split <;> simp_all
  · by_cases hq : q = j
    · subst hq
      simp [Ne.symm hqr, hqr]
    · simp [hq]

/-! ### Memory -/

theorem Memory.valid_eq_false_iff (m : Memory) (a : Nat) : m.valid a = false ↔ m.words ≤ a := by
  rw [← Bool.not_eq_true, m.valid_iff, Nat.not_lt]

theorem Memory.read?_of_lt {m : Memory} {a : Nat} (h : a < m.words) : m.read? a = some (Memory.lookup m.cells a) :=
  if_pos ((m.valid_iff a).2 h)

theorem Memory.write?_of_lt {m : Memory} {a : Nat} (h : a < m.words) (v : Word) :
    m.write? a v = some { m with cells := Memory.update m.cells a v } :=
  if_pos ((m.valid_iff a).2 h)

theorem Memory.write?_of_le {m : Memory} {a : Nat} (h : m.words ≤ a) (v : Word) : m.write? a v = none :=
  if_neg (by simpa using h)

/-- Settles O24: a write below the size succeeds and is what the next read gives; beyond it there is no access. -/
theorem memoryReadsLastWrite : Obligations.MemoryReadsLastWrite := by
  refine fun m a v hm => ⟨fun ha => ?_, fun ha => ⟨Memory.write?_of_le ha v, (m.read?_eq_none_iff a).2 ha⟩⟩
  have hread := Memory.read?_of_write? hm (Memory.write?_of_lt ha v)
  refine ⟨_, Memory.write?_of_lt ha v, rfl, ?_, fun b hb => ?_⟩
  · rw [hread, if_pos rfl]
  · rw [hread, if_neg hb]

/-- The pieces of the canonical form of cells with a first one. -/
theorem Memory.cellsWf_cons_iff {lo hi a : Nat} {v : Word} {rest : List (Nat × Word)} :
    Memory.cellsWf lo hi ((a, v) :: rest) = true ↔
      lo ≤ a ∧ a < hi ∧ v ≠ Memory.unlisted ∧ Memory.cellsWf (a + 1) hi rest = true := by
  simp only [Memory.cellsWf, Bool.and_eq_true, decide_eq_true_eq, and_assoc]

@[simp] theorem Memory.lookup_cons_self (a : Nat) (v : Word) (rest : List (Nat × Word)) :
    Memory.lookup ((a, v) :: rest) a = v := if_pos rfl

/-- Beyond the bound of canonical cells nothing is listed. -/
theorem Memory.lookup_of_le {lo hi : Nat} {cells : List (Nat × Word)} (h : Memory.cellsWf lo hi cells = true) {a : Nat}
    (ha : hi ≤ a) : Memory.lookup cells a = Memory.unlisted := by
  induction cells generalizing lo with
  | nil => rfl
  | cons c rest ih =>
    obtain ⟨b, v⟩ := c
    obtain ⟨-, hb, -, hrest⟩ := Memory.cellsWf_cons_iff.1 h
    rw [Memory.lookup, if_neg (by omega), ih hrest]

/-- The first of canonical cells stands at or before every address that holds something. -/
theorem Memory.first_le_of_lookup_ne {lo hi a b : Nat} {v : Word} {rest : List (Nat × Word)}
    (h : Memory.cellsWf lo hi ((a, v) :: rest) = true)
    (hb : Memory.lookup ((a, v) :: rest) b ≠ Memory.unlisted) : a ≤ b := by
  obtain ⟨-, hhi, hv, hrest⟩ := Memory.cellsWf_cons_iff.1 h
  by_contra hlt
  exact hb (Memory.lookup_of_lt (Memory.cellsWf_cons_iff.2 ⟨le_rfl, hhi, hv, hrest⟩) (Nat.not_le.1 hlt))

/-- Canonical cells that give the same word everywhere are the same cells: the first cell of each stands at the first
address that holds something. -/
theorem Memory.cells_eq_of_lookup_eq {lo hi : Nat} {cells cells' : List (Nat × Word)}
    (h : Memory.cellsWf lo hi cells = true) (h' : Memory.cellsWf lo hi cells' = true)
    (heq : ∀ a, Memory.lookup cells a = Memory.lookup cells' a) : cells = cells' := by
  induction cells generalizing lo cells' with
  | nil =>
    cases cells' with
    | nil => rfl
    | cons c' rest' =>
      obtain ⟨b, u⟩ := c'
      obtain ⟨-, -, hu, -⟩ := Memory.cellsWf_cons_iff.1 h'
      exact absurd ((Memory.lookup_cons_self b u rest').symm.trans (heq b).symm) hu
  | cons c rest ih =>
    obtain ⟨a, v⟩ := c
    obtain ⟨-, -, hv, hrest⟩ := Memory.cellsWf_cons_iff.1 h
    cases cells' with
    | nil => exact absurd ((Memory.lookup_cons_self a v rest).symm.trans (heq a)) hv
    | cons c' rest' =>
      obtain ⟨b, u⟩ := c'
      obtain ⟨-, -, hu, hrest'⟩ := Memory.cellsWf_cons_iff.1 h'
      obtain rfl : a = b := le_antisymm
        (Memory.first_le_of_lookup_ne h (by rwa [heq b, Memory.lookup_cons_self]))
        (Memory.first_le_of_lookup_ne h' (by rwa [← heq a, Memory.lookup_cons_self]))
      obtain rfl : v = u := by simpa using heq a
      refine congrArg _ (ih hrest hrest' fun d => ?_)
      by_cases hd : a = d
      · subst hd
        rw [Memory.lookup_of_lt hrest a.lt_succ_self, Memory.lookup_of_lt hrest' a.lt_succ_self]
      · simpa [Memory.lookup, hd] using heq d

/-- Settles O25: reads give the cells below the size, and beyond it nothing is listed. -/
theorem canonicalMemoryIsUnique : Obligations.CanonicalMemoryIsUnique := by
  rintro ⟨words, cells⟩ ⟨words', cells'⟩ hm hm' hwords hread
  obtain rfl : words = words' := hwords
  obtain ⟨-, -, hcells⟩ := (Memory.wf_iff _).1 hm
  obtain ⟨-, -, hcells'⟩ := (Memory.wf_iff _).1 hm'
  refine congrArg _ (Memory.cells_eq_of_lookup_eq hcells hcells' fun a => ?_)
  by_cases ha : a < words
  · simpa [Memory.read?_of_lt, ha] using hread a
  · rw [Memory.lookup_of_le hcells (Nat.not_lt.1 ha), Memory.lookup_of_le hcells' (Nat.not_lt.1 ha)]

/-- R57: the cells of an initialised memory give its initial words. -/
theorem Memory.lookup_ofWords (words : Nat) (init : List Word) (a : Nat) :
    Memory.lookup (Memory.ofWords words init).cells a = (init.take words).getD a Memory.unlisted := by
  have hlen : 0 + (init.take words).length ≤ words := by simp
  rw [Memory.ofWords, Memory.lookup_storeFrom (hi := words) _ rfl hlen, if_pos a.zero_le, Nat.sub_zero]
  rfl

/-- Settles O26: the size, the initial words below it, and nothing beyond it. -/
theorem powerOnMemoryIsMemInit : Obligations.PowerOnMemoryIsMemInit := by
  refine fun c a => ⟨rfl, fun ha => ?_, fun ha => (Memory.read?_eq_none_iff _ a).2 ha⟩
  calc (State.powerOn c).mem.read? a = some ((c.memInit.take c.memWords).getD a Memory.unlisted) := by
        rw [← Memory.lookup_ofWords]
        exact Memory.read?_of_lt ha
    _ = some (c.memInit.getD a Memory.unlisted) := by simp [List.getD, List.getElem?_take_of_lt ha]

end Sys2Proof.Machine

/-! The seven instructions, each with its result, its flag, its frame and its words (spec/41_arithmetic.md to
spec/44_control_transfer.md): what the ALU answers for each, the two outcomes of LOAD and of STORE by the sum of the
operands, and the words of an opcode. -/

namespace Sys2Proof.Machine

/-! ### The flag of a result -/

/-- R145: the flag of a result is its sign. -/
theorem flagOf_eq_signFlag (r : Word) : flagOf r = SignFlag r := by
  have hmsb : 2 ^ 31 ≤ r.toNat ↔ r.msb = true := by simp [BitVec.msb_eq_decide]
  simp only [flagOf, hmsb]
  rfl

theorem aluResult_eq (r : Int) : aluResult r = (u32 r, SignFlag (u32 r)) := by
  rw [aluResult, flagOf_eq_signFlag]

/-- Settles O19: DIV by 0 has V, and every other result the flag of its sign. -/
theorem aluFlagIsSignOfResult : Obligations.AluFlagIsSignOfResult := by
  intro op a b
  by_cases h : op = .div ∧ b = 0
  · obtain ⟨rfl, rfl⟩ := h
    rfl
  · obtain ⟨r, hr⟩ := alu_eq_aluResult (a := a) h
    rw [if_neg h, hr, aluResult_eq]

/-! ### The ALU's output for the operands of an instruction -/

/-- R200: the sum of the two operands, written out. -/
theorem State.operand_sum (s : State) (f : Fields) : s.operand1 f + s.operand2 f = SumOfOperands s f :=
  (s.effectiveAddr_store f).symm.trans (s.effectiveAddr_eq_sum f (.inr rfl))

/-- R181. -/
theorem State.aluOut_add (s : State) (f : Fields) :
    s.aluOut .add f = (SumOfOperands s f, SignFlag (SumOfOperands s f)) := by
  rw [State.aluOut, alu, aluResult_eq, u32_s32_add, s.operand_sum]

/-- R182: the offset belongs to the subtrahend. -/
theorem State.aluOut_sub (s : State) (f : Fields) :
    s.aluOut .sub f = (s.readReg f.src1 - s.readReg f.src2 - BitVec.ofInt 32 f.offset,
      SignFlag (s.readReg f.src1 - s.readReg f.src2 - BitVec.ofInt 32 f.offset)) := by
  rw [State.aluOut, alu, aluResult_eq, u32_s32_sub, State.operand1, s.operand2_eq, sub_add_eq_sub_sub]

/-- R183. -/
theorem State.aluOut_mul (s : State) (f : Fields) :
    s.aluOut .mul f = (s.readReg f.src1 * (s.readReg f.src2 + BitVec.ofInt 32 f.offset),
      SignFlag (s.readReg f.src1 * (s.readReg f.src2 + BitVec.ofInt 32 f.offset))) := by
  rw [State.aluOut, alu, aluResult_eq, u32_s32_mul, State.operand1, s.operand2_eq]

/-- R184: a zero divisor. -/
theorem State.aluOut_div_of_zero {s : State} {f : Fields} (h : s.readReg f.src2 + BitVec.ofInt 32 f.offset = 0) :
    s.aluOut .div f = (0, CondFlag.V) := by
  rw [State.aluOut, s.operand2_eq, h, alu_div_zero]

/-- R184: any other divisor. -/
theorem State.aluOut_div_of_ne_zero {s : State} {f : Fields} {q : Word}
    (h : s.readReg f.src2 + BitVec.ofInt 32 f.offset ≠ 0)
    (hq : q = BitVec.ofInt 32
      ⌊((s.readReg f.src1).toInt : ℚ) / ((s.readReg f.src2 + BitVec.ofInt 32 f.offset).toInt : ℚ)⌋) :
    s.aluOut .div f = (q, SignFlag q) := by
  rw [State.aluOut, s.operand2_eq, alu_div_of_ne_zero _ h, aluResult_eq, hq, floor_div_eq_fdiv]
  rfl

/-! ### The words of an opcode -/

/-- R181 to R184, R201, R202, R220: how an opcode is encoded, and which words decode to it. -/
theorem words_of_opcode (op : OpCode) :
    (∀ f, encode (op.instr f) = TableWord (op.code * 2 ^ 26) f) ∧
    ∀ w : Word, w &&& 0x7C000000#32 = BitVec.ofNat 32 (op.code * 2 ^ 26) ↔ ∃ f, decode w = .valid (op.instr f) := by
  refine ⟨fun f => ?_, fun w => ?_⟩
  · rw [encode_eq_tableWord, OpCode.op_instr, OpCode.fields_instr]
  · have hword : Layout.js32.op.insert op.code 0 = BitVec.ofNat 32 (op.code * 2 ^ 26) := by cases op <;> decide
    rw [← and_opMask_eq_iff, hword]

/-! ### ADD, SUB, MUL, DIV -/

/-- R180: a satisfied ADD, SUB, MUL or DIV with the ALU's output written out. -/
theorem exec_arith_writes {op : OpCode} (hop : op ∈ [OpCode.add, .sub, .mul, .div]) {f : Fields} {s : State}
    (hc : s.satisfies f.cond = true) {r : Word} {g : CondFlag} (hout : s.aluOut op f = (r, g)) :
    ∃ t, exec (op.instr f) s = .next t ∧ (f.target ≠ 0 → t.readReg f.target = r) ∧ t.flag = g ∧
      ArithFrame f s t := by
  refine ⟨s.arith op f, exec_instr_of_satisfied hop hc, fun ht => ?_, ?_, s.arithFrame_arith op f⟩
  · rw [s.readReg_arith_target, hout]
    exact if_neg ht
  · rw [s.arith_flag, hout]

/-- Settles O30: the arithmetic effect with the ALU's sum. -/
theorem addWritesSum : Obligations.AddWritesSum :=
  ⟨fun f s hc => exec_arith_writes (op := .add) (by simp) hc (s.aluOut_add f), words_of_opcode .add⟩

/-- Settles O31: the arithmetic effect with the ALU's difference. -/
theorem subWritesDifference : Obligations.SubWritesDifference :=
  ⟨fun f s hc => exec_arith_writes (op := .sub) (by simp) hc (s.aluOut_sub f), words_of_opcode .sub⟩

/-- Settles O32: the arithmetic effect with the ALU's product. -/
theorem mulWritesLowProduct : Obligations.MulWritesLowProduct :=
  ⟨fun f s hc => exec_arith_writes (op := .mul) (by simp) hc (s.aluOut_mul f), words_of_opcode .mul⟩

/-- Settles O33: the arithmetic effect with the ALU's quotient, by the divisor. -/
theorem divWritesFloorQuotient : Obligations.DivWritesFloorQuotient := by
  refine ⟨fun f s hc => ?_, words_of_opcode .div⟩
  intro B q
  refine exec_arith_writes (op := .div) (by simp) hc ?_
  by_cases hB : B = 0
  · rw [if_pos hB, if_pos hB]
    exact State.aluOut_div_of_zero hB
  · rw [if_neg hB, if_neg hB]
    exact State.aluOut_div_of_ne_zero hB rfl

/-! ### LOAD -/

/-- R201: a LOAD of a word that is there. -/
theorem State.loadEffect_of_read? {s : State} {f : Fields} {v : Word}
    (h : s.mem.read? (s.effectiveAddr .load f).toNat = some v) : s.loadEffect f = s.advancePc.writeReg f.target v := by
  simp only [State.loadEffect, h]

/-- R309: a LOAD beyond memory. -/
theorem State.loadEffect_of_le {s : State} {f : Fields} (h : s.mem.words ≤ (s.effectiveAddr .load f).toNat) :
    s.loadEffect f = s.raise (.loadOutOfRange s.pc (s.effectiveAddr .load f)) := by
  simp only [State.loadEffect, (s.mem.read?_eq_none_iff _).2 h]

/-- R201: what the effect of LOAD leaves unchanged. -/
theorem State.arithFrame_advancePc_writeReg (s : State) (f : Fields) (v : Word) :
    ArithFrame f s (s.advancePc.writeReg f.target v) := by
  refine ⟨fun hp => ?_, fun q hq hqp => ?_, fun a => by rw [State.writeReg_mem, State.advancePc_mem],
    State.writeReg_halted .., State.writeReg_fault ..⟩
  · rw [State.writeReg_pc_of_ne _ hp, State.advancePc_pc]
  · rw [State.readReg_writeReg, if_neg fun h => hq h.1.symm, State.readReg_advancePc s hqp]

/-- Settles O34: the effect of LOAD at a readable address. -/
theorem loadCopiesWord : Obligations.LoadCopiesWord := by
  refine ⟨fun f s v hc hr => ?_, words_of_opcode .load⟩
  rw [← s.effectiveAddr_eq_sum f (.inl rfl)] at hr
  have hexec := exec_load_of_satisfied hc
  rw [State.loadEffect_of_read? hr] at hexec
  refine ⟨_, hexec, fun ht => ?_, State.writeReg_flag .., s.arithFrame_advancePc_writeReg f v⟩
  rw [State.readReg_writeReg]
  exact if_pos ⟨rfl, ht⟩

/-- Settles O35: the effect of LOAD beyond memory. -/
theorem loadOutOfRangeFaults : Obligations.LoadOutOfRangeFaults := by
  intro f s hc h
  rw [← s.effectiveAddr_eq_sum f (.inl rfl)] at h ⊢
  rw [exec_load_of_satisfied hc, State.loadEffect_of_le h]
  rfl

/-! ### STORE -/

/-- R310: a STORE beyond memory. -/
theorem State.storeEffect_of_le {s : State} {f : Fields} (h : s.mem.words ≤ (s.effectiveAddr .store f).toNat) :
    s.storeEffect f = s.raise (.storeOutOfRange s.pc (s.effectiveAddr .store f)) := by
  obtain ⟨-, e⟩ | ⟨m, hw, -⟩ := s.storeEffect_cases f
  · exact e
  · exact absurd (Memory.write?_eq_some hw).1 (Nat.not_lt.2 h)

/-- R202: a STORE at a valid address advances the pc and binds the memory written. -/
theorem State.storeEffect_of_valid {s : State} {f : Fields}
    (h : s.mem.valid (s.effectiveAddr .store f).toNat = true) :
    ∃ m, s.mem.write? (s.effectiveAddr .store f).toNat (s.advancePc.readReg f.target) = some m ∧
      s.storeEffect f = s.advancePc.setMem m := by
  obtain ⟨hn, -⟩ | hw := s.storeEffect_cases f
  · rw [hn] at h
    cases h
  · exact hw

/-- Settles O36: the effect of STORE at a valid address, and the read after its write. -/
theorem storeWritesWord : Obligations.StoreWritesWord := by
  refine ⟨fun f s hc hm hv => ⟨s.effectiveAddr_eq_sum f (.inr rfl), ?_⟩, words_of_opcode .store⟩
  obtain ⟨m, hw, e⟩ := State.storeEffect_of_valid hv
  have hread := Memory.read?_of_write? hm hw
  have hexec := exec_store_of_satisfied hc
  rw [e] at hexec
  refine ⟨_, hexec, ?_, fun a ha => ?_, rfl, fun q hq => ?_, rfl, rfl, rfl⟩
  · rw [State.setMem_mem, hread, if_pos rfl, s.readReg_advancePc_eq]
    rfl
  · rw [State.setMem_mem, hread, if_neg ha]
  · rw [State.readReg_setMem, State.readReg_advancePc s hq]

/-- Settles O37: the effect of STORE beyond memory. -/
theorem storeOutOfRangeFaults : Obligations.StoreOutOfRangeFaults := by
  intro f s hc h
  rw [← s.effectiveAddr_eq_sum f (.inr rfl)] at h ⊢
  rw [exec_store_of_satisfied hc, State.storeEffect_of_le h]
  rfl

/-- Settles O42: the sum of the operands, with slot 0 as 0 and slot 15 as the pc. -/
theorem effectiveAddressForms : Obligations.EffectiveAddressForms := by
  intro f s op hop
  have h0 : s.readReg 0 = 0 := s.readReg_zeroReg
  have h15 : s.readReg 15 = s.pc := s.readReg_pcReg
  rw [s.effectiveAddr_eq_sum f hop]
  refine ⟨rfl, fun h1 h2 => ?_, fun h1 => ?_, fun hk => ?_, fun h1 h2 => ?_⟩
  · simp [SumOfOperands, h1, h2, h0]
  · simp [SumOfOperands, h1, h0]
  · simp [SumOfOperands, hk]
  · simp [SumOfOperands, h1, h2, h0, h15]

/-! ### HALT -/

/-- Settles O38: the two outcomes of HALT, and the step of a halted machine. -/
theorem haltStopsTheEngine : Obligations.HaltStopsTheEngine :=
  ⟨fun _ _ hc => exec_halt_of_satisfied hc, fun _ _ hc => exec_of_not_satisfied hc,
    fun s hh => step_of_stopped ((State.stopped_iff s).2 (.inl hh)), words_of_opcode .halt⟩

/-! ### Jumps -/

/-- R232: the arithmetic effect with target 15 leaves the ALU's result in the pc. -/
theorem State.arith_pc_of_target_pc (s : State) (op : OpCode) {f : Fields} (hf : f.target = pcReg) :
    (s.arith op f).pc = (s.aluOut op f).1 := by
  rw [State.arith, hf]
  rfl

/-- Settles O40: the effects that write their target, with target 15. -/
theorem writingSlotFifteenJumps : Obligations.WritingSlotFifteenJumps := by
  refine fun f s hf hc => ⟨fun op hop => ?_, fun v hr => ?_, fun d => ?_⟩
  · exact ⟨_, exec_instr_of_satisfied hop hc, s.arith_pc_of_target_pc op hf, s.arith_fault op f⟩
  · refine ⟨_, exec_load_of_satisfied hc, ?_, ?_⟩ <;> rw [State.loadEffect_of_read? hr]
    · rw [hf]
      rfl
    · rw [State.writeReg_fault, State.advancePc_fault]
  · have hsum := s.aluOut_add_of_pc_relative (f := ⟨f.cond, 15, 0, 15, d, 0⟩) rfl rfl
    refine ⟨_, exec_instr_of_satisfied (op := .add) (by simp) hc, ?_, ?_⟩
    · rw [s.arith_pc_of_target_pc .add rfl, hsum]
    · rw [s.arith_flag, ← hsum, s.aluOut_add]

end Sys2Proof.Machine

/-! The step (spec/40_engine_alu.md section 2, spec/60_exceptions.md): when it runs an instruction, why it records a
fault, where it writes memory, where it goes on, and which register it does not depend on. -/

namespace Sys2Proof.Machine

/-! ### The step of a running and of a stopped machine -/

/-- R32: running is neither halted nor faulted. -/
theorem State.stopped_eq_false_iff (s : State) : s.stopped = false ↔ s.halted = false ∧ s.fault = none := by
  rw [← Bool.not_eq_true, State.stopped_iff, not_or, Bool.not_eq_true, not_not]

/-- R152: exactly a running machine whose word at the pc decodes publishes an event. -/
theorem State.stepEvent_eq_some_iff (s : State) (e : StepEvent) :
    s.stepEvent = some e ↔ s.stopped = false ∧ e.address = s.pc ∧ s.mem.read? s.pc.toNat = some e.word ∧
      decode e.word = .valid e.instr := by
  obtain ⟨a, w, i⟩ := e
  obtain ⟨hs, e⟩ | ⟨-, hr, e⟩ | ⟨w', c, -, hr, hd, e⟩ | ⟨w', i', hs, hr, hd, e⟩ := s.fetch_cases
  · simp [State.stepEvent, e, hs]
  · simp [State.stepEvent, e, hr]
  · simp only [State.stepEvent, e, reduceCtorEq, hr, Option.some.injEq, false_iff]
    rintro ⟨-, -, rfl, hd'⟩
    rw [hd] at hd'
    cases hd'
  · simp only [State.stepEvent, e, Option.some.injEq, StepEvent.mk.injEq, hs, hr, true_and, eq_comm (a := s.pc)]
    refine and_congr_right fun _ => and_congr_right fun hw => ?_
    rw [← hw, hd, Decoded.valid.injEq]

/-- Settles O54: the event of a running machine. -/
theorem stepEventIsTheFetch : Obligations.StepEventIsTheFetch := fun s e => by
  rw [s.stepEvent_eq_some_iff, s.stopped_eq_false_iff, and_assoc]

/-- Settles O43: a running machine executes what it has fetched and decoded, and publishes it. -/
theorem stepRunsDecodedInstruction : Obligations.StepRunsDecodedInstruction := fun s w i hh hf hr hd =>
  have hs := State.stopped_eq_false hh hf
  ⟨step_of_valid hs hr hd, (s.stepEvent_eq_some_iff ⟨s.pc, w, i⟩).2 ⟨hs, rfl, hr, hd⟩⟩

/-- Settles O44: a stopped machine makes no step, no access and no event. -/
theorem stoppedStepChangesNothing : Obligations.StoppedStepChangesNothing := fun s h => by
  have hs := (State.stopped_iff s).2 h
  refine ⟨step_of_stopped hs, State.accesses_of_stopped hs, Option.eq_none_iff_forall_ne_some.2 fun e he => ?_⟩
  obtain ⟨hrun, -⟩ := (s.stepEvent_eq_some_iff e).1 he
  exact absurd (hs.symm.trans hrun) (by decide)

/-- Settles O51: each way a step ends is a next state. -/
theorem stepIsTotal : Obligations.StepIsTotal := step_eq_next

/-! ### Faults -/

/-- R307 to R310: when a running machine's step records a fault, by the fault. -/
def State.FaultCause (s : State) : Fault → Prop
  | .fetchOutOfRange a => a = s.pc ∧ s.mem.words ≤ s.pc.toNat
  | .illegalOpcode a w => a = s.pc ∧ s.mem.read? s.pc.toNat = some w ∧ ∃ c, decode w = .undeclared c
  | .loadOutOfRange a ea =>
    a = s.pc ∧ s.mem.words ≤ ea.toNat ∧
      ∃ w f, s.mem.read? s.pc.toNat = some w ∧ decode w = .valid (.load f) ∧ s.satisfies f.cond = true ∧
        ea = SumOfOperands s f
  | .storeOutOfRange a ea =>
    a = s.pc ∧ s.mem.words ≤ ea.toNat ∧
      ∃ w f, s.mem.read? s.pc.toNat = some w ∧ decode w = .valid (.store f) ∧ s.satisfies f.cond = true ∧
        ea = SumOfOperands s f

/-- R306: a cause of a fault makes the step record it, and nothing else. -/
theorem step_of_faultCause {s : State} (hs : s.stopped = false) {φ : Fault} (h : s.FaultCause φ) :
    step s = .next (s.raise φ) := by
  cases φ with
  | fetchOutOfRange a =>
    obtain ⟨rfl, hle⟩ := h
    simp only [step, State.fetch, hs, (s.mem.read?_eq_none_iff _).2 hle, Bool.false_eq_true, if_false]
  | illegalOpcode a w =>
    obtain ⟨rfl, hr, c, hd⟩ := h
    simp only [step, State.fetch, hs, hr, hd, Bool.false_eq_true, if_false]
  | loadOutOfRange a ea =>
    obtain ⟨rfl, hle, w, f, hr, hd, hc, rfl⟩ := h
    rw [step_of_valid hs hr hd]
    exact loadOutOfRangeFaults f s hc hle
  | storeOutOfRange a ea =>
    obtain ⟨rfl, hle, w, f, hr, hd, hc, rfl⟩ := h
    rw [step_of_valid hs hr hd]
    exact storeOutOfRangeFaults f s hc hle

/-- R157: an instruction keeps the fault status, or is a satisfied LOAD or STORE of an address beyond memory. -/
theorem exec_fault_cases {i : Instr} {s t : State} (h : exec i s = .next t) :
    t.fault = s.fault ∨
    ∃ f, s.satisfies f.cond = true ∧ s.mem.words ≤ (SumOfOperands s f).toNat ∧
      ((i = .load f ∧ t = s.raise (.loadOutOfRange s.pc (SumOfOperands s f))) ∨
       (i = .store f ∧ t = s.raise (.storeOutOfRange s.pc (SumOfOperands s f)))) := by
  obtain ⟨-, e⟩ | ⟨hc, ⟨f, rfl, e⟩ | ⟨f, rfl, e⟩ | ⟨f, rfl, e⟩ | ⟨f, -, e⟩⟩ := exec_cases i s
  all_goals
    rw [e, Host.Outcome.next.injEq] at h
    subst h
  · exact .inl rfl
  · exact .inl rfl
  · have hea := s.effectiveAddr_eq_sum f (op := .load) (.inl rfl)
    obtain ⟨hv, e⟩ | ⟨v, -, e⟩ := s.loadEffect_cases f <;> rw [e]
    · rw [hea] at hv ⊢
      exact .inr ⟨f, hc, (s.mem.valid_eq_false_iff _).1 hv, .inl ⟨rfl, rfl⟩⟩
    · exact .inl (by simp)
  · have hea := s.effectiveAddr_eq_sum f (op := .store) (.inr rfl)
    obtain ⟨hv, e⟩ | ⟨m, -, e⟩ := s.storeEffect_cases f <;> rw [e]
    · rw [hea] at hv ⊢
      exact .inr ⟨f, hc, (s.mem.valid_eq_false_iff _).1 hv, .inr ⟨rfl, rfl⟩⟩
    · exact .inl rfl
  · exact .inl (State.arith_fault ..)

/-- R305, R312: a running machine's step records no fault without its cause. -/
theorem step_fault_cases {s t : State} (hs : s.stopped = false) (h : step s = .next t) :
    t.fault = none ∨ ∃ φ, s.FaultCause φ ∧ t = s.raise φ := by
  obtain ⟨hn, -⟩ | ⟨-, hr, e⟩ | ⟨w, c, -, hr, hd, e⟩ | ⟨w, i, -, hr, hd, e⟩ := step_cases s
  · exact absurd (hs.symm.trans hn) (by decide)
  · rw [e, Host.Outcome.next.injEq] at h
    exact .inr ⟨.fetchOutOfRange s.pc, ⟨rfl, (s.mem.read?_eq_none_iff _).1 hr⟩, h.symm⟩
  · rw [e, Host.Outcome.next.injEq] at h
    exact .inr ⟨.illegalOpcode s.pc w, ⟨rfl, hr, c, hd⟩, h.symm⟩
  · rw [e] at h
    obtain hkept | ⟨f, hc, hle, ⟨rfl, ht⟩ | ⟨rfl, ht⟩⟩ := exec_fault_cases h
    · exact .inl (hkept.trans ((s.stopped_eq_false_iff).1 hs).2)
    · exact .inr ⟨.loadOutOfRange s.pc _, ⟨rfl, hle, w, f, hr, hd, hc, rfl⟩, ht⟩
    · exact .inr ⟨.storeOutOfRange s.pc _, ⟨rfl, hle, w, f, hr, hd, hc, rfl⟩, ht⟩

/-- R305: a running machine's step records exactly the fault that has its cause. -/
theorem step_fault_eq_some_iff {s t : State} (hs : s.stopped = false) (h : step s = .next t) (φ : Fault) :
    t.fault = some φ ↔ s.FaultCause φ := by
  constructor
  · intro hφ
    obtain hn | ⟨ψ, hψ, rfl⟩ := step_fault_cases hs h
    · cases hn.symm.trans hφ
    · cases hφ
      exact hψ
  · intro hφ
    rw [step_of_faultCause hs hφ, Host.Outcome.next.injEq] at h
    rw [← h, State.raise_fault]

/-- Settles O45: the cause of each fault, written out. -/
theorem faultsHaveTheirCauses : Obligations.FaultsHaveTheirCauses := fun _ _ hh hf h =>
  have hiff := step_fault_eq_some_iff (State.stopped_eq_false hh hf) h
  ⟨fun a => hiff (.fetchOutOfRange a), fun a w => hiff (.illegalOpcode a w), fun a ea => hiff (.loadOutOfRange a ea),
    fun a ea => hiff (.storeOutOfRange a ea)⟩

/-- Settles O46: a step that ends faulted has changed nothing, or recorded the fault. -/
theorem faultsArePrecise : Obligations.FaultsArePrecise := by
  intro s t h hfault
  have hlast : step t = .next t := step_of_stopped ((State.stopped_iff t).2 (.inr hfault))
  cases hs : s.stopped with
  | true =>
    obtain rfl : s = t := Host.Outcome.next.inj ((step_of_stopped hs).symm.trans h)
    exact ⟨rfl, fun _ => rfl, hlast⟩
  | false =>
    obtain hn | ⟨φ, -, rfl⟩ := step_fault_cases hs h
    · exact absurd hn hfault
    · exact ⟨rfl, fun hf => absurd ((s.stopped_eq_false_iff).1 hs).2 hf, hlast⟩

/-! ### Memory -/

/-- R157: an instruction keeps memory, or is a satisfied STORE whose write makes the next memory. -/
theorem exec_mem_cases {i : Instr} {s t : State} (h : exec i s = .next t) :
    t.mem = s.mem ∨
    ∃ f, i = .store f ∧ s.satisfies f.cond = true ∧
      s.mem.write? (s.effectiveAddr .store f).toNat (s.advancePc.readReg f.target) = some t.mem := by
  obtain ⟨-, e⟩ | ⟨hc, ⟨f, -, e⟩ | ⟨f, -, e⟩ | ⟨f, rfl, e⟩ | ⟨f, -, e⟩⟩ := exec_cases i s
  all_goals
    rw [e, Host.Outcome.next.injEq] at h
    subst h
  · exact .inl rfl
  · exact .inl rfl
  · obtain ⟨-, e⟩ | ⟨v, -, e⟩ := s.loadEffect_cases f <;> exact .inl (by simp [e])
  · obtain ⟨-, e⟩ | ⟨m, hw, e⟩ := s.storeEffect_cases f <;> rw [e]
    · exact .inl rfl
    · exact .inr ⟨f, rfl, hc, hw⟩
  · exact .inl (State.arith_mem ..)

/-- R157: a step keeps memory, or runs a satisfied STORE whose write makes the next memory. -/
theorem step_mem_cases {s t : State} (h : step s = .next t) :
    t.mem = s.mem ∨
    ∃ w f, s.mem.read? s.pc.toNat = some w ∧ decode w = .valid (.store f) ∧ s.satisfies f.cond = true ∧
      s.mem.write? (s.effectiveAddr .store f).toNat (s.advancePc.readReg f.target) = some t.mem := by
  by_cases hm : t.mem = s.mem
  · exact .inl hm
  · obtain ⟨w, i, hr, hd, hexec⟩ := step_runs_of_changed State.mem State.raise_mem h hm
    obtain ⟨f, rfl, hc, hw⟩ := (exec_mem_cases hexec).resolve_left hm
    exact .inr ⟨w, f, hr, hd, hc, hw⟩

/-- Settles O49: the one write of a STORE, and the reads after it. -/
theorem memoryWrittenOnlyByStore : Obligations.MemoryWrittenOnlyByStore := by
  intro s t hm h
  obtain hkept | ⟨w, f, hr, hd, hc, hw⟩ := step_mem_cases h
  · rw [hkept]
    exact ⟨rfl, fun a ha => absurd rfl ha⟩
  · have hread := Memory.read?_of_write? hm hw
    obtain ⟨hlt, hcells⟩ := Memory.write?_eq_some hw
    refine ⟨by rw [hcells], fun a ha => ?_⟩
    obtain rfl : a = (s.effectiveAddr .store f).toNat := by
      by_contra hne
      exact ha (by rw [hread, if_neg hne])
    exact ⟨w, f, hr, hd, hc, rfl, hlt, by rw [hread, if_pos rfl]⟩

/-- Settles O53: after a STORE that does not fault the next word is the stored one, and the machine is still running. -/
theorem storeIsSeenByNextFetch : Obligations.StoreIsSeenByNextFetch := by
  intro s w f j hh hf hm hr hd hc hea hv hj
  rw [← hea] at hv
  obtain ⟨m, hw, e⟩ := State.storeEffect_of_valid hv
  have hstep := step_of_valid (State.stopped_eq_false hh hf) hr hd
  rw [exec_store_of_satisfied hc, e] at hstep
  refine ⟨_, hstep, step_of_valid (State.stopped_eq_false hh hf) ?_ hj⟩
  rw [State.setMem_mem, State.setMem_pc, State.advancePc_pc, ← hea, Memory.read?_of_write? hm hw, if_pos rfl]

/-! ### Sequential flow -/

/-- R230: an instruction that ends without a fault advances the pc, unless it is a satisfied one that writes slot
15. -/
theorem exec_pc_of_no_fault {i : Instr} {s t : State} (h : exec i s = .next t) (ht : t.fault = none)
    (htarget : i.fields.target = pcReg → s.satisfies i.fields.cond = true → i.op = .halt ∨ i.op = .store) :
    t.pc = s.pc + 1 := by
  obtain ⟨-, e⟩ | ⟨hc, ⟨f, rfl, e⟩ | ⟨f, rfl, e⟩ | ⟨f, rfl, e⟩ | ⟨f, hi, e⟩⟩ := exec_cases i s
  all_goals
    rw [e, Host.Outcome.next.injEq] at h
    subst h
  · rfl
  · rfl
  · have hne : f.target ≠ pcReg := fun hp => by simpa [Instr.op] using htarget hp hc
    obtain ⟨-, e⟩ | ⟨v, -, e⟩ := s.loadEffect_cases f <;> rw [e] at ht ⊢
    · cases ht
    · rw [State.writeReg_pc_of_ne _ hne, State.advancePc_pc]
  · obtain ⟨-, e⟩ | ⟨m, -, e⟩ := s.storeEffect_cases f <;> rw [e] at ht ⊢
    · cases ht
    · rfl
  · have hne : f.target ≠ pcReg := fun hp => by
      obtain rfl | rfl | rfl | rfl := hi <;> simpa [Instr.op] using htarget hp hc
    exact (s.arithFrame_arith i.op f).1 hne

/-- Settles O52: the step is the instruction's. -/
theorem flowIsSequential : Obligations.FlowIsSequential := by
  intro s t w i hh hf hr hd h ht htarget
  rw [step_of_valid (State.stopped_eq_false hh hf) hr hd] at h
  exact exec_pc_of_no_fault h ht htarget

/-! ### Registers an instruction does not read -/

theorem State.readReg_writeReg_of_ne (s : State) {q r : Reg} (h : q ≠ r) (v : Word) :
    (s.writeReg q v).readReg r = s.readReg r := by
  rw [State.readReg_writeReg, if_neg fun e => h e.1]

theorem State.satisfies_writeReg (s : State) (q : Reg) (v : Word) (cond : CondFlag) :
    (s.writeReg q v).satisfies cond = s.satisfies cond := by
  rw [State.satisfies, State.writeReg_flag, State.satisfies]

/-- R25, R154: the ALU does not see a slot that is no source. -/
theorem State.aluOut_writeReg (s : State) {q : Reg} {f : Fields} (h1 : q ≠ f.src1) (h2 : q ≠ f.src2) (v : Word)
    (op : OpCode) : (s.writeReg q v).aluOut op f = s.aluOut op f := by
  simp only [State.aluOut, State.operand1, State.operand2, s.readReg_writeReg_of_ne h1, s.readReg_writeReg_of_ne h2]

theorem State.advancePc_writeReg (s : State) {q : Reg} (hq : q ≠ pcReg) (v : Word) :
    (s.writeReg q v).advancePc = s.advancePc.writeReg q v := by
  refine State.ext_slots (fun r => ?_) (by simp) (by simp) (by simp) (by simp)
  by_cases hr : r = pcReg
  · subst hr
    rw [State.readReg_writeReg_of_ne _ hq, State.readReg_pcReg, State.readReg_pcReg, State.advancePc_pc,
      State.advancePc_pc, s.writeReg_pc_of_ne hq]
  · rw [State.readReg_advancePc _ hr, State.readReg_writeReg, State.readReg_writeReg, State.readReg_advancePc _ hr]

theorem State.raise_writeReg (s : State) (q : Reg) (v : Word) (φ : Fault) :
    (s.writeReg q v).raise φ = (s.raise φ).writeReg q v :=
  State.ext_slots (fun r => by simp only [State.readReg_raise, State.readReg_writeReg]) (by simp) (by simp) (by simp)
    (by simp)

theorem State.setFlag_writeReg (s : State) (q : Reg) (v : Word) (g : CondFlag) :
    (s.writeReg q v).setFlag g = (s.setFlag g).writeReg q v :=
  State.ext_slots (fun r => by simp only [State.readReg_setFlag, State.readReg_writeReg]) (by simp) (by simp)
    (by simp) (by simp)

theorem State.setHalted_writeReg (s : State) (q : Reg) (v : Word) :
    (s.writeReg q v).setHalted = s.setHalted.writeReg q v :=
  State.ext_slots (fun r => by simp only [State.readReg_setHalted, State.readReg_writeReg]) (by simp) (by simp)
    (by simp) (by simp)

theorem State.setMem_writeReg (s : State) (q : Reg) (v : Word) (m : Memory) :
    (s.writeReg q v).setMem m = (s.setMem m).writeReg q v :=
  State.ext_slots (fun r => by simp only [State.readReg_setMem, State.readReg_writeReg]) (by simp) (by simp)
    (by simp) (by simp)

/-- R25: the arithmetic effect from two states that differ in an unread slot. -/
theorem State.exists_arith_writeReg (s : State) {q : Reg} {f : Fields} (hq : q ≠ pcReg) (h1 : q ≠ f.src1)
    (h2 : q ≠ f.src2) (v : Word) (op : OpCode) :
    ∃ v', (s.writeReg q v).arith op f = (s.arith op f).writeReg q v' := by
  obtain ⟨v', hcomm⟩ := s.advancePc.exists_writeReg_comm q f.target v (s.aluOut op f).1
  refine ⟨v', ?_⟩
  rw [State.arith, s.aluOut_writeReg h1 h2, s.advancePc_writeReg hq, hcomm, State.setFlag_writeReg]
  rfl

/-- R25: the effect of LOAD from two states that differ in an unread slot. -/
theorem State.exists_loadEffect_writeReg (s : State) {q : Reg} {f : Fields} (hq : q ≠ pcReg) (h1 : q ≠ f.src1)
    (h2 : q ≠ f.src2) (v : Word) : ∃ v', (s.writeReg q v).loadEffect f = (s.loadEffect f).writeReg q v' := by
  have hea : (s.writeReg q v).effectiveAddr .load f = s.effectiveAddr .load f :=
    congrArg Prod.fst (s.aluOut_writeReg h1 h2 v .load)
  cases hr : s.mem.read? (s.effectiveAddr .load f).toNat with
  | none =>
    refine ⟨v, ?_⟩
    simp only [State.loadEffect, hea, State.writeReg_mem, hr, s.writeReg_pc_of_ne hq, State.raise_writeReg]
  | some x =>
    obtain ⟨v', hcomm⟩ := s.advancePc.exists_writeReg_comm q f.target v x
    refine ⟨v', ?_⟩
    simp only [State.loadEffect, hea, State.writeReg_mem, hr, s.advancePc_writeReg hq, hcomm]

/-- R25: the effect of STORE from two states that differ in an unread slot. -/
theorem State.storeEffect_writeReg (s : State) {q : Reg} {f : Fields} (hq : q ≠ pcReg) (h1 : q ≠ f.src1)
    (h2 : q ≠ f.src2) (ht : q ≠ f.target) (v : Word) :
    (s.writeReg q v).storeEffect f = (s.storeEffect f).writeReg q v := by
  have hea : (s.writeReg q v).effectiveAddr .store f = s.effectiveAddr .store f :=
    congrArg Prod.fst (s.aluOut_writeReg h1 h2 v .store)
  have hword := s.advancePc.readReg_writeReg_of_ne ht v
  cases hw : s.mem.write? (s.effectiveAddr .store f).toNat (s.advancePc.readReg f.target) with
  | none =>
    simp only [State.storeEffect, hea, s.advancePc_writeReg hq, hword, State.writeReg_mem, hw,
      s.writeReg_pc_of_ne hq, State.raise_writeReg]
  | some m =>
    simp only [State.storeEffect, hea, s.advancePc_writeReg hq, hword, State.writeReg_mem, hw, State.setMem_writeReg]

/-- Settles O50: each of the effects from two states that differ in an unread slot. -/
theorem onlyNamedRegistersMatter : Obligations.OnlyNamedRegistersMatter := by
  intro i s q v hq h1 h2 hstore
  have hsat := s.satisfies_writeReg q v i.fields.cond
  cases hc : s.satisfies i.fields.cond with
  | false =>
    exact ⟨_, _, v, exec_of_not_satisfied hc, exec_of_not_satisfied (hsat.trans hc), s.advancePc_writeReg hq v⟩
  | true =>
    rw [hc] at hsat
    cases i with
    | halt f =>
      refine ⟨_, _, v, exec_halt_of_satisfied hc, exec_halt_of_satisfied hsat, ?_⟩
      rw [s.advancePc_writeReg hq, State.setHalted_writeReg]
    | load f =>
      obtain ⟨v', e⟩ := s.exists_loadEffect_writeReg hq h1 h2 v
      exact ⟨_, _, v', exec_load_of_satisfied hc, exec_load_of_satisfied hsat, e⟩
    | store f =>
      exact ⟨_, _, v, exec_store_of_satisfied hc, exec_store_of_satisfied hsat,
        s.storeEffect_writeReg hq h1 h2 (hstore rfl) v⟩
    | add f | sub f | mul f | div f =>
      obtain ⟨v', e⟩ := s.exists_arith_writeReg hq h1 h2 v _
      exact ⟨_, _, v', exec_of_writesFlag rfl hc, exec_of_writesFlag rfl hsat, e⟩

end Sys2Proof.Machine

/-! The invariants (spec/10_state.md section 4, spec/60_exceptions.md section 3): what a step keeps of memory and the
flag, that a recorded fault stays true of its state, and the same for every command of the host. -/

namespace Sys2Proof.Machine

/-! ### Memory and the flag -/

/-- What a step and every command of the host keep: the canonical form of memory, a legal flag, and the size of
memory. -/
structure KeepsMemoryAndFlag (s t : State) : Prop where
  memWf     : s.mem.wf = true → t.mem.wf = true
  flagLegal : FlagLegal s.flag → FlagLegal t.flag
  words     : t.mem.words = s.mem.words

theorem KeepsMemoryAndFlag.trans {s t u : State} (hst : KeepsMemoryAndFlag s t) (htu : KeepsMemoryAndFlag t u) :
    KeepsMemoryAndFlag s u :=
  ⟨htu.memWf ∘ hst.memWf, htu.flagLegal ∘ hst.flagLegal, htu.words.trans hst.words⟩

/-- A change that leaves memory and the flag. -/
theorem KeepsMemoryAndFlag.of_eq {s t : State} (hm : t.mem = s.mem) (hf : t.flag = s.flag) : KeepsMemoryAndFlag s t :=
  ⟨fun h => hm ▸ h, fun h => hf ▸ h, congrArg Memory.words hm⟩

/-- R30, R145, R146: the ALU's flag is exactly one of M, Z, P, V. -/
theorem flagLegal_alu (op : OpCode) (a b : Word) : FlagLegal (alu op a b).2 := by
  by_cases h : op = .div ∧ b = 0
  · rw [(alu_flag_eq_V_iff op a b).2 h]
    exact .inr (.inr (.inr (.inr rfl)))
  · obtain ⟨r, hr⟩ := alu_eq_aluResult (a := a) h
    rw [hr]
    obtain e | e | e := flagOf_cases (u32 r) <;> rw [aluResult, e]
    · exact .inr (.inr (.inl rfl))
    · exact .inr (.inl rfl)
    · exact .inr (.inr (.inr (.inl rfl)))

/-- R28: a step keeps the flag or writes the ALU's. -/
theorem step_flagLegal {s t : State} (h : step s = .next t) (hs : FlagLegal s.flag) : FlagLegal t.flag := by
  by_cases hf : t.flag = s.flag
  · rwa [hf]
  · obtain ⟨w, i, -, -, hexec⟩ := step_runs_of_changed State.flag State.raise_flag h hf
    obtain ⟨hw, hc⟩ := (exec_flag_cases hexec).resolve_left hf
    rw [exec_of_writesFlag hw hc, Host.Outcome.next.injEq] at hexec
    rw [← hexec, State.arith_flag]
    exact flagLegal_alu ..

theorem step_keepsMemoryAndFlag {s t : State} (h : step s = .next t) : KeepsMemoryAndFlag s t := by
  refine ⟨fun hm => ?_, step_flagLegal h, ?_⟩ <;> obtain e | ⟨w, f, -, -, -, hw⟩ := step_mem_cases h
  · rwa [e]
  · exact Memory.write?_wf hm hw
  · rw [e]
  · rw [(Memory.write?_eq_some hw).2]

/-! ### The invariant of a step -/

/-- R306: the state that a fault is recorded in has the fault's cause. -/
theorem State.faultPrecise_raise {s : State} (hh : s.halted = false) {φ : Fault} (h : s.FaultCause φ) :
    (s.raise φ).FaultPrecise := by
  cases φ with
  | fetchOutOfRange a =>
    obtain ⟨rfl, hle⟩ := h
    exact ⟨hh, rfl, (s.mem.valid_eq_false_iff _).2 hle⟩
  | illegalOpcode a w =>
    obtain ⟨rfl, hr, hd⟩ := h
    exact ⟨hh, rfl, hr, hd⟩
  | loadOutOfRange a ea =>
    obtain ⟨rfl, hle, w, f, hr, hd, hc, rfl⟩ := h
    exact ⟨hh, rfl, (s.mem.valid_eq_false_iff _).2 hle, w, f, hr, hd, hc, s.effectiveAddr_eq_sum f (.inl rfl)⟩
  | storeOutOfRange a ea =>
    obtain ⟨rfl, hle, w, f, hr, hd, hc, rfl⟩ := h
    exact ⟨hh, rfl, (s.mem.valid_eq_false_iff _).2 hle, w, f, hr, hd, hc, s.effectiveAddr_eq_sum f (.inr rfl)⟩

theorem State.faultPrecise_of_fault_none {s : State} (h : s.fault = none) : s.FaultPrecise := by
  rw [State.FaultPrecise, h]
  trivial

/-- R306: a step of a stopped machine changes nothing, and a running one faults by a cause or not at all. -/
theorem step_faultPrecise {s t : State} (h : step s = .next t) (hs : s.FaultPrecise) : t.FaultPrecise := by
  cases hstop : s.stopped with
  | true =>
    obtain rfl : s = t := Host.Outcome.next.inj ((step_of_stopped hstop).symm.trans h)
    exact hs
  | false =>
    obtain hn | ⟨φ, hφ, rfl⟩ := step_fault_cases hstop h
    · exact State.faultPrecise_of_fault_none hn
    · exact State.faultPrecise_raise ((s.stopped_eq_false_iff).1 hstop).1 hφ

/-- Settles O56: the three parts of the invariant, each kept by itself. -/
theorem stepKeepsInvariant : Obligations.StepKeepsInvariant := fun _ _ hs h =>
  have hkeeps := step_keepsMemoryAndFlag h
  ⟨hkeeps.memWf hs.memWf, hkeeps.flagLegal hs.flagLegal, step_faultPrecise h hs.faultPrecise⟩

/-- Settles O57: the initial memory is canonical whatever its words, the flag is ALWAYS, and there is no fault. -/
theorem resetMeetsInvariant : Obligations.ResetMeetsInvariant where
  memWf := Memory.ofWords_wf (by decide) (by decide) _
  flagLegal := .inl rfl
  faultPrecise := State.faultPrecise_of_fault_none rfl

/-! ### The host's commands -/

/-- R162: the loop keeps what a step keeps, however long it runs. -/
theorem runLoop_keepsMemoryAndFlag {n : Nat} {s t : State} (h : runLoop n s = .next t) : KeepsMemoryAndFlag s t := by
  induction n generalizing s with
  | zero =>
    obtain rfl : s = t := Host.Outcome.next.inj h
    exact .of_eq rfl rfl
  | succ n ih =>
    cases hs : s.stopped with
    | true =>
      obtain rfl : s = t := Host.Outcome.next.inj ((runLoop_of_stopped hs _).symm.trans h)
      exact .of_eq rfl rfl
    | false =>
      obtain ⟨u, hu⟩ := step_eq_next s
      rw [runLoop_succ_of_running hs hu] at h
      exact (step_keepsMemoryAndFlag hu).trans (ih h)

/-- R345: the loader keeps the size. -/
theorem Memory.load?_words {m m' : Memory} {image : List Int} (h : m.load? image = some m') : m'.words = m.words := by
  unfold Memory.load? at h
  split at h
  · cases h
    rfl
  · cases h

/-- Settles O58: `run` keeps what a step keeps, `load` and `reset` write memory and the flag themselves. -/
theorem commandsKeepMemoryAndFlag : Obligations.CommandsKeepMemoryAndFlag := by
  intro c s t hm hf h
  cases c with
  | reset =>
    obtain rfl : s.resetCommand = t := Host.Outcome.next.inj h
    exact ⟨hm, .inl rfl, rfl⟩
  | load image =>
    obtain ⟨m, hload, rfl⟩ := command_load_eq_next h
    exact ⟨Memory.load?_wf hm hload, hf, Memory.load?_words hload⟩
  | run a n =>
    have hkeeps : KeepsMemoryAndFlag s t :=
      KeepsMemoryAndFlag.trans (t := s.beginRun a) (.of_eq rfl rfl) (runLoop_keepsMemoryAndFlag h)
    exact ⟨hkeeps.memWf hm, hkeeps.flagLegal hf, hkeeps.words⟩
  | step =>
    have hkeeps := step_keepsMemoryAndFlag h
    exact ⟨hkeeps.memWf hm, hkeeps.flagLegal hf, hkeeps.words⟩

end Sys2Proof.Machine
